-- ==== Sys2Proof/Word.lean ====
section
/-! DEFINITION. The word of the machine: a byte (00_scope.md R6 `XLEN`, R8, R9). -/

namespace Sys2Proof

/-- The one data width of the machine: every register, PC, FL, memory cell and operand byte (R6). -/
abbrev Byte := BitVec 8

end Sys2Proof
end

