-- ==== Sys2Proof/Syntax.lean ====
section
/-! DEFINITION. The instructions: one constructor per row of spec/opcode_table.json (30_encoding.md R84). -/

namespace Sys2Proof

/-- A register-number operand: a whole operand byte as it stands, of which 0 to 7 are legal (R83, R89). -/
abbrev RegNum := BitVec 8

/-- The closed instruction set of R84. `ra` is `opa`, `rb` and `imm` are `opb`. -/
inductive Instr where
  /-- HALT (HLT), R110. -/
  | halt
  /-- LOAD-IMMEDIATE (LDI), R111. -/
  | loadImmediate (ra : RegNum) (imm : Byte)
  /-- PRINT (PRN), R112. -/
  | print (ra : RegNum)
  /-- MUL, R123. -/
  | mul (ra rb : RegNum)
  /-- ADD, R121. -/
  | add (ra rb : RegNum)
  /-- SUB, R122. -/
  | sub (ra rb : RegNum)
  /-- DIV, R124. -/
  | div (ra rb : RegNum)
  /-- POP, R142. -/
  | pop (ra : RegNum)
  /-- PUSH, R141. -/
  | push (ra : RegNum)
  /-- CALL, R151. -/
  | call (ra : RegNum)
  /-- RETURN (RET), R152. -/
  | ret
  /-- JUMP (JMP), R153. -/
  | jump (ra : RegNum)
  /-- COMPARE (CMP), R125. -/
  | compare (ra rb : RegNum)
  /-- JUMP-IF-EQUAL (JEQ), R154. -/
  | jumpIfEqual (ra : RegNum)
  /-- JUMP-IF-NOT-EQUAL (JNE), R155. -/
  | jumpIfNotEqual (ra : RegNum)
deriving DecidableEq, Repr

/-- The register-number operands of an instruction, `opa` first (R89). The immediate of
LOAD-IMMEDIATE is none of them (R83, R90). -/
def Instr.regOperands : Instr → List RegNum
  | .halt => []
  | .loadImmediate ra _ => [ra]
  | .print ra => [ra]
  | .mul ra rb => [ra, rb]
  | .add ra rb => [ra, rb]
  | .sub ra rb => [ra, rb]
  | .div ra rb => [ra, rb]
  | .pop ra => [ra]
  | .push ra => [ra]
  | .call ra => [ra]
  | .ret => []
  | .jump ra => [ra]
  | .compare ra rb => [ra, rb]
  | .jumpIfEqual ra => [ra]
  | .jumpIfNotEqual ra => [ra]

end Sys2Proof
end

