-- ==== Sys2Proof/WellFormed.lean ====
section
/-! DEFINITION. The one check on an instruction: every register number is in [0,7] (30_encoding.md R89). -/

namespace Sys2Proof

/-- A legal register number (R22, R89). -/
def RegNum.legal (r : RegNum) : Bool := r.toNat < 8

/-- A well-formed instruction: every register-number operand is legal (R89). Every immediate is (R90). -/
def Instr.wellFormed (i : Instr) : Bool := i.regOperands.all RegNum.legal

end Sys2Proof
end

