-- ==== Sys2Proof/Decode.lean ====
section
/-! DEFINITION. Decoding (30_encoding.md R80 to R90), total on any bytes and rejecting by name; the encoder
after it, from the same table; and the host's numbering of an instruction's bits. -/

namespace Sys2Proof

/-- Why bytes are no instruction. -/
inductive DecodeError where
  /-- The first byte is not one of the 15 opcodes (R85, R87, R88). -/
  | unrecognized (op : Byte)
  /-- An operand byte the opcode asks for is not there (20_memory.md R53). -/
  | missingByte
  /-- A register-number operand is above 7 (R89). -/
  | invalidRegister (r : RegNum)
deriving DecidableEq, Repr

/-- What the decoder answers: an instruction and the bytes after it, or the reason it is none. -/
abbrev Decoded := Except DecodeError (Instr × List Byte)

/-- Format OP1 (R82): one register number; the register check comes after the fetch (R89). -/
def decodeReg (mk : RegNum → Instr) : List Byte → Decoded
  | a :: rest => if a.toNat < 8 then .ok (mk a, rest) else .error (.invalidRegister a)
  | [] => .error .missingByte

/-- Format OP2 with two register numbers (R82): both bytes are fetched, then `opa` is checked, then `opb` (R89). -/
def decodeRegReg (mk : RegNum → RegNum → Instr) : List Byte → Decoded
  | a :: b :: rest =>
    if a.toNat < 8 then
      if b.toNat < 8 then .ok (mk a b, rest) else .error (.invalidRegister b)
    else .error (.invalidRegister a)
  | _ => .error .missingByte

/-- Format OP2 with an immediate (R82, R90): `opb` is never checked. -/
def decodeRegImm (mk : RegNum → Byte → Instr) : List Byte → Decoded
  | a :: b :: rest => if a.toNat < 8 then .ok (mk a b, rest) else .error (.invalidRegister a)
  | _ => .error .missingByte

/-- The opcode map of R84, matched on the whole opcode byte. An unrecognised opcode asks for no operand (R88). -/
def decode : List Byte → Decoded
  | [] => .error .missingByte
  | op :: bs =>
    match op with
    | 0b00000001#8 => .ok (.halt, bs)
    | 0b10000010#8 => decodeRegImm .loadImmediate bs
    | 0b01000111#8 => decodeReg .print bs
    | 0b10100010#8 => decodeRegReg .mul bs
    | 0b10100000#8 => decodeRegReg .add bs
    | 0b10100001#8 => decodeRegReg .sub bs
    | 0b10100011#8 => decodeRegReg .div bs
    | 0b01000110#8 => decodeReg .pop bs
    | 0b01000101#8 => decodeReg .push bs
    | 0b01010000#8 => decodeReg .call bs
    | 0b00010001#8 => .ok (.ret, bs)
    | 0b01010100#8 => decodeReg .jump bs
    | 0b10100111#8 => decodeRegReg .compare bs
    | 0b01010101#8 => decodeReg .jumpIfEqual bs
    | 0b01010110#8 => decodeReg .jumpIfNotEqual bs
    | _ => .error (.unrecognized op)

/-- The opcode byte of an instruction (R84, the hexadecimal column). -/
def Instr.opcode : Instr → Byte
  | .halt => 0x01#8
  | .loadImmediate _ _ => 0x82#8
  | .print _ => 0x47#8
  | .mul _ _ => 0xA2#8
  | .add _ _ => 0xA0#8
  | .sub _ _ => 0xA1#8
  | .div _ _ => 0xA3#8
  | .pop _ => 0x46#8
  | .push _ => 0x45#8
  | .call _ => 0x50#8
  | .ret => 0x11#8
  | .jump _ => 0x54#8
  | .compare _ _ => 0xA7#8
  | .jumpIfEqual _ => 0x55#8
  | .jumpIfNotEqual _ => 0x56#8

/-- The operand bytes of an instruction in memory order (R82; 20_memory.md R56). -/
def Instr.operandBytes : Instr → List Byte
  | .loadImmediate ra imm => [ra, imm]
  | .halt => []
  | .print ra => [ra]
  | .mul ra rb => [ra, rb]
  | .add ra rb => [ra, rb]
  | .sub ra rb => [ra, rb]
  | .div ra rb => [ra, rb]
  | .pop ra => [ra]
  | .push ra => [ra]
  | .call ra => [ra]
  | .ret => []
  | .jump ra => [ra]
  | .compare ra rb => [ra, rb]
  | .jumpIfEqual ra => [ra]
  | .jumpIfNotEqual ra => [ra]

/-- The bytes of an instruction at rising addresses: opcode, `opa`, `opb` (R80, R82). -/
def encode (i : Instr) : List Byte := i.opcode :: i.operandBytes

/-- The first three bytes (the longest instruction, R6 `MAX_ILEN`) of an instruction whose bits are `w`,
bit 0 the least significant of the first byte; every bit from `nbits` on is 0. -/
def tableWordBytes (nbits w : Nat) : List Byte :=
  let v := w % 2 ^ nbits
  [BitVec.ofNat 8 v, BitVec.ofNat 8 (v / 256), BitVec.ofNat 8 (v / 65536)]

/-- The instruction the decoder reads from a word of spec/opcode_table.json (`none` where it refuses). -/
def decodeTableWord (nbits w : Nat) : Option Instr :=
  match decode (tableWordBytes nbits w) with
  | .ok (i, _) => some i
  | .error _ => none

end Sys2Proof
end

