-- ==== Sys2Proof/Config.lean ====
section
/-! DEFINITION. What an implementation fixes (00_scope.md R7): the one open parameter `STACK_EMPTY`. -/

namespace Sys2Proof

/-- The configuration of a machine: R7's only OPEN parameter. Fixed for the machine; no instruction
writes it. DESIGN CHOICE (entry 3): it is carried in State, so that statements hold for all its values. -/
structure Config where
  /-- `STACK_EMPTY` (R7, R145): POP and RETURN fail when SP is at or above it. -/
  stackEmpty : Byte
deriving DecidableEq, Repr

/-- R7's default, the reset value of SP (D6). -/
def Config.default : Config := ⟨0xF4#8⟩

end Sys2Proof
end

