-- ==== Sys2Proof/Machine/State.lean ====
section
/-! DEFINITION. The state of the machine (10_state.md R20, R38), its reset value (R40), the ways a step can end. -/

namespace Sys2Proof.Machine

/-- The faults of 60_exceptions.md R181. Taking one is a step to a Halted next state (R183), not an outcome of
its own; each is terminal for the program and safe. -/
inductive FaultCause where
  /-- Code 1: an operand fetch beyond address 255, or a push at SP = 0. Raised by every instruction with
  operands, PUSH and CALL. -/
  | addressOutOfBounds
  /-- Code 2: a register number above 7 (R89). Raised by every instruction with a register operand. -/
  | invalidRegisterIndex
  /-- Code 3: DIV by zero (R124). -/
  | divisionByZero
  /-- Code 4: POP or RETURN with SP at or above `STACK_EMPTY` (R142, R152). -/
  | stackUnderflow
  /-- Code 5: reserved; nothing raises it (R188). -/
  | stackOverflow
  /-- Code 6: an opcode byte outside the table (R85). -/
  | unrecognizedInstruction
  /-- Code 7: unreachable; nothing raises it (R128). -/
  | unsupportedALUOperation
deriving DecidableEq, Repr

/-- The Execution Engine's two states (R36). -/
inductive RunState where
  | running
  | halted
deriving DecidableEq, Repr

/-- Memory as the list of the cells that differ from what an unlisted cell reads as, addresses rising (R50). -/
abbrev Memory := List Host.Cell

/-- The complete architectural state (R20), the output trace (R38) and the configuration constant (R7). -/
structure State where
  /-- R0 to R7; R7 is SP, the same storage element (R21, R23). -/
  x : Vector Byte 8
  /-- The address of the next instruction to fetch (R27). -/
  pc : Byte
  /-- The flags register FL (R32). -/
  fl : Byte
  /-- The 256 memory cells (R50). -/
  mem : Memory
  /-- Running or Halted (R36). -/
  run : RunState
  /-- The fault that halted the engine, if one did (R37). -/
  fault : Option FaultCause
  /-- What PRINT has emitted since reset, oldest first (R38). -/
  out : List Byte
  /-- `STACK_EMPTY`, constant (R7; entry 3): the model's own field. -/
  cfg : Config
deriving DecidableEq, Repr

/-- Why `step` gives no next state. -/
inductive Fault where
  /-- Raised by `step` alone, in a state whose `run` is Halted: the machine takes no step there (R36, D21).
  No condition of R181: a stuck state. Safe. -/
  | halted
deriving DecidableEq, Repr

/-- What the model gives no meaning to. -/
inductive Refusal where
  /-- An instruction without a meaning yet, by its mnemonic: raised by `exec` alone; no arm does. Safe. -/
  | notModelled (mnemonic : String)
  /-- Raised by a load (`State.loadImage`): an image of more than 256 bytes (70_reset_and_hazards.md R224, D20). Safe. -/
  | imageTooLong
  /-- Raised by a load (`State.loadImage`) anywhere but after reset and before the first step, where the host
  cannot write memory (R4, R227). Safe. -/
  | loadAfterStart
deriving DecidableEq, Repr

/-- The outcome of an instruction or a step. -/
abbrev Result := Host.Outcome State Fault Refusal

/-- The state after reset of a machine with configuration `cfg` (R40, R220). -/
def State.resetWith (cfg : Config) : State where
  x := #v[0x00#8, 0x00#8, 0x00#8, 0x00#8, 0x00#8, 0x00#8, 0x00#8, 0xF4#8]
  pc := 0x00#8
  fl := 0x00#8
  mem := []
  run := .running
  fault := none
  out := []
  cfg := cfg

/-- The state right after reset, with R7's default configuration. -/
def State.reset : State := State.resetWith Config.default

end Sys2Proof.Machine
end

