-- ==== Sys2Proof/Machine/Ops.lean ====
section
/-! DEFINITION. The named operations over memory, registers, PC and output, the stack, and taking a fault. -/

namespace Sys2Proof.Machine

/-! ### Memory (20_memory.md R50 to R53) -/

/-- What a cell nothing has written reads as (R40, the spec's `MEM_FILL`, D5; entry 5). -/
def Memory.fill : Byte := 0x00#8

/-- The byte at an address. -/
def Memory.read : Memory → Nat → Byte
  | [], _ => Memory.fill
  | (a, b) :: m, k => if a = k then b else Memory.read m k

/-- A memory with no entry for address `k`. -/
def Memory.erase (m : Memory) (k : Nat) : Memory := m.filter fun c => decide (c.1 ≠ k)

/-- A memory with the entry `(k, v)` before the first entry of a higher address. -/
def Memory.insertCell (k : Nat) (v : Byte) : Memory → Memory
  | [] => [(k, v)]
  | (a, b) :: m => if k < a then (k, v) :: (a, b) :: m else (a, b) :: Memory.insertCell k v m

/-- Set one cell; a cell that holds `fill` is not listed. -/
def Memory.write (m : Memory) (k : Nat) (v : Byte) : Memory :=
  if v = Memory.fill then m.erase k else Memory.insertCell k v (m.erase k)

/-- Addresses strictly rising from `lo`, all below 256, and no entry equal to `fill`. -/
def Memory.wfFrom : Nat → Memory → Bool
  | _, [] => true
  | lo, (a, b) :: m => decide (lo ≤ a) && decide (a < 256) && decide (b ≠ Memory.fill) && Memory.wfFrom (a + 1) m

/-- The canonical form: equal memories are equal lists. -/
def Memory.wf (m : Memory) : Bool := Memory.wfFrom 0 m

/-- Write bytes at consecutive addresses, those below 256 only. -/
def Memory.writeBytes (m : Memory) (a : Nat) : List Byte → Memory
  | [] => m
  | b :: bs => Memory.writeBytes (if a < 256 then m.write a b else m) (a + 1) bs

/-- `MemRead(addr, 1)` (R51): `addr` is an exact integer, not reduced modulo 256. -/
def State.memRead (s : State) (addr : Int) : Except FaultCause Byte :=
  if 0 ≤ addr ∧ addr ≤ 255 then .ok (s.mem.read addr.toNat) else .error .addressOutOfBounds

/-- `MemWrite(addr, 1, v)` (R52): out of bounds it writes nothing, else only the one cell. -/
def State.memWrite (s : State) (addr : Int) (v : Byte) : Except FaultCause State :=
  if 0 ≤ addr ∧ addr ≤ 255 then .ok { s with mem := s.mem.write addr.toNat v }
  else .error .addressOutOfBounds

/-- The bytes `MemRead` gives at `n` consecutive addresses from `addr`, up to the first one out of bounds. -/
def State.readFrom (s : State) (addr : Int) : Nat → List Byte
  | 0 => []
  | n + 1 =>
    match s.memRead addr with
    | .ok b => b :: s.readFrom (addr + 1) n
    | .error _ => []

/-- The bytes an instruction at `pc` is decoded from: up to three (R6 `MAX_ILEN`), as far as memory goes
(R53: a missing one is the decoder's `missingByte`). DEDUCED (entry 16): a byte the decoder does not ask for
(R95) may be read here, since reads have no side effect (R58). -/
def State.fetchWindow (s : State) : List Byte := s.readFrom s.pc.toNat 3

/-! ### Values (00_scope.md R9) -/

/-- `a mod 256` of an exact integer, as a byte. -/
def mod256 (a : Int) : Byte := BitVec.ofInt 8 a

/-! ### Registers (10_state.md R21 to R24) -/

/-- Register number 7, the stack pointer (R6 `SP_INDEX`). -/
def spIndex : Fin 8 := 7

/-- `x[i]`. -/
def State.reg (s : State) (i : Fin 8) : Byte := s.x[i]

/-- `x[i] <- v`. -/
def State.setReg (s : State) (i : Fin 8) (v : Byte) : State := { s with x := s.x.set i v }

/-- `SP`, another name for `x[7]` (R23). -/
def State.sp (s : State) : Byte := s.reg spIndex

/-- `SP <- SP - 1`. -/
def State.decSp (s : State) : State := s.setReg spIndex (mod256 ((s.sp.toNat : Int) - 1))

/-- `SP <- (SP + 1) mod 256`. -/
def State.incSp (s : State) : State := s.setReg spIndex (mod256 ((s.sp.toNat : Int) + 1))

/-! ### Program counter (10_state.md R27 to R29) and output (40_system_data.md R113) -/

/-- `pc <- target`. -/
def State.setPc (s : State) (target : Byte) : State := { s with pc := target }

/-- The address `n` bytes after the executing instruction's own, `(a0 + n) mod 256` (R29). -/
def State.pcAfter (s : State) (n : Nat) : Byte := mod256 ((s.pc.toNat : Int) + n)

/-- The sequential update `pc <- (a0 + len) mod 256` (R28). -/
def State.advance (s : State) (len : Nat) : State := s.setPc (s.pcAfter len)

/-- `fl <- v` (R34). -/
def State.setFl (s : State) (v : Byte) : State := { s with fl := v }

/-- `Output(v)` (R113): append to the trace. -/
def State.output (s : State) (v : Byte) : State := { s with out := s.out ++ [v] }

/-- `run <- Halted` (R110). -/
def State.halt (s : State) : State := { s with run := .halted }

/-! ### Taking a fault (60_exceptions.md R183): there is no return from one (R191) -/

/-- `fault <- code; run <- Halted`, and nothing else. -/
def State.raise (s : State) (c : FaultCause) : State := { s with fault := some c, run := .halted }

/-- The end of a step that raises `c` in the state `s` it began in: a next state (R183). -/
def raise (c : FaultCause) (s : State) : Result := .next (s.raise c)

/-- The fault a decoding failure raises (R85, R53, R89). -/
def decodeFault : DecodeError → FaultCause
  | .unrecognized _ => .unrecognizedInstruction
  | .missingByte => .addressOutOfBounds
  | .invalidRegister _ => .invalidRegisterIndex

/-! ### The stack (42_stack.md R140, R145) -/

/-- The exact integer address a push writes (R53, R140). -/
def State.pushAddr (s : State) : Int := (s.sp.toNat : Int) - 1

/-- A push of `v`: fails exactly when SP is 0 (R145), before anything changes. -/
def State.push (s : State) (v : Byte) : Except FaultCause State := s.decSp.memWrite s.pushAddr v

/-- The byte a pop reads: fails when SP is at or above `STACK_EMPTY` (R145), else the cell at SP. -/
def State.stackTop (s : State) : Except FaultCause Byte :=
  if s.cfg.stackEmpty.toNat ≤ s.sp.toNat then .error .stackUnderflow else s.memRead s.sp.toNat

end Sys2Proof.Machine
end

