-- ==== Sys2Proof/Machine/Flags.lean ====
section
/-! DEFINITION. The flags register: layout (10_state.md R33), legal values (R35), the one computation (41_alu.md R125). -/

namespace Sys2Proof.Machine

/-- Only E set (R33, R35). -/
def flEqual : Byte := 0x01#8
/-- Only G set. -/
def flGreater : Byte := 0x02#8
/-- Only L set. -/
def flLess : Byte := 0x04#8
/-- No flag set: the value at reset (R35, R40). -/
def flNone : Byte := 0x00#8

/-- The Equal flag, `fl[0]`. -/
def State.flagE (s : State) : Bool := s.fl.getLsbD 0
/-- The Greater-Than flag, `fl[1]`. -/
def State.flagG (s : State) : Bool := s.fl.getLsbD 1
/-- The Less-Than flag, `fl[2]`. -/
def State.flagL (s : State) : Bool := s.fl.getLsbD 2

/-- The four legal values of FL (R35). -/
def flLegal (v : Byte) : Bool := v = flNone || v = flEqual || v = flGreater || v = flLess

/-- What COMPARE writes (R125): an unsigned comparison, the whole of FL overwritten. -/
def compareFlags (a b : Byte) : Byte :=
  if a.toNat = b.toNat then flEqual
  else if a.toNat > b.toNat then flGreater
  else flLess

end Sys2Proof.Machine
end

