-- ==== Sys2Proof/Machine/Operands.lean ====
section
/-! DEFINITION. The operand forms (30_encoding.md R83): register-number operands and their check (R22, R89).
An immediate needs no operation: it is the byte as it stands. -/

namespace Sys2Proof.Machine

/-- The register a number names; none outside [0,7] (R22). -/
def regIndex (r : RegNum) : Option (Fin 8) :=
  if h : r.toNat < 8 then some ⟨r.toNat, h⟩ else none

/-- Run `k` on the register `r` names, or raise InvalidRegisterIndex (R89). -/
def withReg (r : RegNum) (s : State) (k : Fin 8 → Result) : Result :=
  match regIndex r with
  | some i => k i
  | none => raise .invalidRegisterIndex s

/-- Run `k` on the registers two numbers name, `ra` checked first (R89). -/
def withRegs (ra rb : RegNum) (s : State) (k : Fin 8 → Fin 8 → Result) : Result :=
  withReg ra s fun i => withReg rb s fun j => k i j

/-- Go on with the value of an operation, or raise its fault in the state the instruction began in (R184). -/
def orRaise {α : Type} (e : Except FaultCause α) (s : State) (k : α → Result) : Result :=
  match e with
  | .ok v => k v
  | .error c => raise c s

end Sys2Proof.Machine
end

