-- ==== Sys2Proof/Machine/Alu.lean ====
section
/-! DEFINITION. ADD, SUB, MUL, DIV, COMPARE (41_alu.md). -/

namespace Sys2Proof.Machine

/-- Add (R121): exact sum, mod 256. -/
def aluAdd (a b : Byte) : Byte := mod256 ((a.toNat : Int) + b.toNat)
/-- Subtract (R122): exact difference, mod 256. -/
def aluSub (a b : Byte) : Byte := mod256 ((a.toNat : Int) - b.toNat)
/-- Multiply (R123): exact product, mod 256. -/
def aluMul (a b : Byte) : Byte := mod256 ((a.toNat : Int) * b.toNat)
/-- Divide (R124, R126): unsigned floor quotient; DivisionByZero for a zero divisor, whatever the dividend. -/
def aluDiv (a b : Byte) : Except FaultCause Byte :=
  if b.toNat = 0 then .error .divisionByZero else .ok (mod256 ((a.toNat / b.toNat : Nat) : Int))

/-- The shape of an arithmetic instruction (R120): both registers are read, then regA is written. -/
def arith (op : Byte → Byte → Except FaultCause Byte) (ra rb : RegNum) (s : State) : Result :=
  withRegs ra rb s fun i j =>
    orRaise (op (s.reg i) (s.reg j)) s fun v => .next ((s.setReg i v).advance 3)

/-- ADD (R121). -/
def execAdd (ra rb : RegNum) (s : State) : Result := arith (fun a b => .ok (aluAdd a b)) ra rb s

/-- SUB (R122): regA minus regB. -/
def execSub (ra rb : RegNum) (s : State) : Result := arith (fun a b => .ok (aluSub a b)) ra rb s

/-- MUL (R123). -/
def execMul (ra rb : RegNum) (s : State) : Result := arith (fun a b => .ok (aluMul a b)) ra rb s

/-- DIV (R124). -/
def execDiv (ra rb : RegNum) (s : State) : Result := arith aluDiv ra rb s

/-- COMPARE (R125): writes FL and no register. -/
def execCompare (ra rb : RegNum) (s : State) : Result :=
  withRegs ra rb s fun i j => .next ((s.setFl (compareFlags (s.reg i) (s.reg j))).advance 3)

end Sys2Proof.Machine
end

