-- ==== Sys2Proof/Machine/Control.lean ====
section
/-! DEFINITION. CALL, RETURN, JUMP, JUMP-IF-EQUAL, JUMP-IF-NOT-EQUAL (43_control_transfer.md). -/

namespace Sys2Proof.Machine

/-- CALL (R151): pushes `(a0 + 2) mod 256`; the target is read after SP is decremented (R143). -/
def execCall (ra : RegNum) (s : State) : Result :=
  withReg ra s fun i => orRaise (s.push (s.pcAfter 2)) s fun t => .next (t.setPc (t.reg i))

/-- RETURN (R152): the popped byte is the new PC as it stands. -/
def execRet (s : State) : Result :=
  orRaise s.stackTop s fun t => .next (s.incSp.setPc t)

/-- JUMP (R153). -/
def execJump (ra : RegNum) (s : State) : Result :=
  withReg ra s fun i => .next (s.setPc (s.reg i))

/-- JUMP-IF-EQUAL (R154): taken when E is set; the register number is checked on both paths (R89). -/
def execJumpIfEqual (ra : RegNum) (s : State) : Result :=
  withReg ra s fun i => .next (if s.flagE then s.setPc (s.reg i) else s.advance 2)

/-- JUMP-IF-NOT-EQUAL (R155): taken when E is clear. -/
def execJumpIfNotEqual (ra : RegNum) (s : State) : Result :=
  withReg ra s fun i => .next (if s.flagE then s.advance 2 else s.setPc (s.reg i))

end Sys2Proof.Machine
end

