-- ==== Sys2Proof/Machine/Stack.lean ====
section
/-! DEFINITION. PUSH and POP (42_stack.md). -/

namespace Sys2Proof.Machine

/-- PUSH (R141): the register is read after SP is decremented, so PUSH R7 pushes the decremented SP (R143). -/
def execPush (ra : RegNum) (s : State) : Result :=
  withReg ra s fun i => orRaise (s.push (s.decSp.reg i)) s fun t => .next (t.advance 2)

/-- POP (R142): SP is incremented after the register is written, so POP R7 leaves the popped byte plus 1 (R143). -/
def execPop (ra : RegNum) (s : State) : Result :=
  withReg ra s fun i => orRaise s.stackTop s fun v => .next ((s.setReg i v).incSp.advance 2)

end Sys2Proof.Machine
end

