-- ==== Sys2Proof/Machine/SystemData.lean ====
section
/-! DEFINITION. HALT, LOAD-IMMEDIATE, PRINT (40_system_data.md). -/

namespace Sys2Proof.Machine

/-- HALT (R110): PC advances by 1 (D15), the engine halts, `fault` stays as it is. -/
def execHalt (s : State) : Result := .next (s.advance 1).halt

/-- LOAD-IMMEDIATE (R111). -/
def execLoadImmediate (ra : RegNum) (imm : Byte) (s : State) : Result :=
  withReg ra s fun i => .next ((s.setReg i imm).advance 3)

/-- PRINT (R112). -/
def execPrint (ra : RegNum) (s : State) : Result :=
  withReg ra s fun i => .next ((s.output (s.reg i)).advance 2)

end Sys2Proof.Machine
end

