-- ==== Sys2Proof/Machine/Dispatch.lean ====
section
/-! DEFINITION. Dispatch (30_encoding.md R96): one arm per constructor of Instr, each one call of its meaning. -/

namespace Sys2Proof.Machine

def exec (i : Instr) (s : State) : Host.Outcome State Fault Refusal :=
  match i with
  | .halt => Sys2Proof.Machine.execHalt s
  | .loadImmediate ra imm => Sys2Proof.Machine.execLoadImmediate ra imm s
  | .print ra => Sys2Proof.Machine.execPrint ra s
  | .mul ra rb => Sys2Proof.Machine.execMul ra rb s
  | .add ra rb => Sys2Proof.Machine.execAdd ra rb s
  | .sub ra rb => Sys2Proof.Machine.execSub ra rb s
  | .div ra rb => Sys2Proof.Machine.execDiv ra rb s
  | .pop ra => Sys2Proof.Machine.execPop ra s
  | .push ra => Sys2Proof.Machine.execPush ra s
  | .call ra => Sys2Proof.Machine.execCall ra s
  | .ret => Sys2Proof.Machine.execRet s
  | .jump ra => Sys2Proof.Machine.execJump ra s
  | .compare ra rb => Sys2Proof.Machine.execCompare ra rb s
  | .jumpIfEqual ra => Sys2Proof.Machine.execJumpIfEqual ra s
  | .jumpIfNotEqual ra => Sys2Proof.Machine.execJumpIfNotEqual ra s

end Sys2Proof.Machine
end

