-- ==== Sys2Proof/Machine/Step.lean ====
section
/-! DEFINITION. One step of the machine (30_encoding.md R94), and the host's placing of one instruction. -/

namespace Sys2Proof.Machine

/-- R94. A Halted machine takes no step (10_state.md R36): the stuck state `Fault.halted` (entry 2). -/
def step (s : State) : Host.Outcome State Fault Refusal :=
  match s.run with
  | .halted => .fault .halted
  | .running =>
    match decode s.fetchWindow with
    | .error e => raise (decodeFault e) s
    | .ok (i, _) => exec i s

/-- `s` with an instruction word of spec/opcode_table.json at `pc` (entry 14): its three bytes, zeros after
`nbits`, as far as memory goes. Nothing else changes; a Halted machine stays Halted. -/
def State.withFetchWord (s : State) (nbits w : Nat) : State :=
  { s with mem := s.mem.writeBytes s.pc.toNat (tableWordBytes nbits w) }

end Sys2Proof.Machine
end

