-- ==== Sys2Proof/Machine/HostPort.lean ====
section
/-! DEFINITION. The host's side (00_scope.md R4, R5; 70_reset_and_hazards.md R224, R227): loading an image
after reset, and what the boundary shows. -/

namespace Sys2Proof.Machine

/-- The Loader's bulk write: byte `i` of the image to address `i` (20_memory.md R68). -/
def State.load (image : List Byte) (s : State) : State := { s with mem := s.mem.writeBytes 0 image }

/-- The state is one a reset leaves: no step has been taken and nothing loaded since (R220). -/
def State.atReset (s : State) : Bool := s = State.resetWith s.cfg

/-- The interaction `load(image)` (R227): after reset and before the first step, 0 to 256 bytes (R224, D20).
At any other time the host has no way to write memory (R4), and the model refuses the load (entry 21). -/
def State.loadImage (image : List Byte) (s : State) : Result :=
  if s.atReset then
    if image.length ≤ 256 then .next (s.load image) else .refused .imageTooLong
  else .refused .loadAfterStart

/-- A launch (R224): reset, then load. -/
def launch (cfg : Config) (image : List Byte) : Result := (State.resetWith cfg).loadImage image

/-- The signal `reset` (R5, R220): every piece of state takes its reset value, whatever it was, memory too
(entry 20); the configuration constant is no state and stays. -/
def State.resetSignal (s : State) : State := State.resetWith s.cfg

/-- What the host can make happen (R227). Each lands between two steps: a step is atomic (R3; entry 18). -/
inductive HostAction where
  /-- `reset`, at any time. -/
  | reset
  /-- `load(image)`. -/
  | load (image : List Byte)
  /-- One step of the engine the host has started. -/
  | step
deriving DecidableEq, Repr

/-- The effect of a host action on the machine (R227). Reset is never refused, Running or Halted. -/
def hostAct (a : HostAction) (s : State) : Result :=
  match a with
  | .reset => .next s.resetSignal
  | .load image => s.loadImage image
  | .step => Sys2Proof.Machine.step s

/-- The boundary signal `halted` (R5). -/
def State.haltedSignal (s : State) : Bool := s.run = .halted

/-- The boundary signal `fault_cause[2:0]` (R5): the codes of 60_exceptions.md R181. -/
def State.faultCode (s : State) : BitVec 3 :=
  match s.fault with
  | none => 0#3
  | some .addressOutOfBounds => 1#3
  | some .invalidRegisterIndex => 2#3
  | some .divisionByZero => 3#3
  | some .stackUnderflow => 4#3
  | some .stackOverflow => 5#3
  | some .unrecognizedInstruction => 6#3
  | some .unsupportedALUOperation => 7#3

/-- What the host sees at any time (R227): the output, `halted` and `fault_cause`. -/
structure HostView where
  out : List Byte
  halted : Bool
  faultCause : BitVec 3
deriving DecidableEq, Repr

/-- The host's view of a state, Running or Halted (R227). -/
def State.hostView (s : State) : HostView := ⟨s.out, s.haltedSignal, s.faultCode⟩

/-- The whole state, which the host may read when the machine is Halted and not before (R227, R228). -/
def State.hostRead (s : State) : Option State := if s.run = .halted then some s else none

end Sys2Proof.Machine
end

