-- ==== Sys2Proof/Safety.lean ====
section
/-! DEFINITION. The terms claims are stated in: the invariant, runs, launched states, the fault matrix of
60_exceptions.md R201 written from the raw bytes, and the register table of 10_state.md R25. -/

namespace Sys2Proof.Machine

/-- The register number of a register: every legal operand byte is one of these. -/
def regNum (i : Fin 8) : RegNum := BitVec.ofNat 8 i.val

/-- What holds at reset and after every step. -/
structure State.Inv (s : State) : Prop where
  /-- Memory keeps its canonical form, every listed address below 256 (20_memory.md R50). -/
  memCanonical : s.mem.wf = true
  /-- FL holds one of its four legal values, so its reserved bits read 0 (10_state.md R32, R35). -/
  flagsLegal : flLegal s.fl = true
  /-- A recorded fault has halted the engine (R37, R186). -/
  faultHalts : s.fault ≠ none → s.run = .halted
  /-- The two reserved causes are never recorded (R188; 41_alu.md R128). -/
  faultRaisable : s.fault ≠ some .stackOverflow ∧ s.fault ≠ some .unsupportedALUOperation

/-- `RunsTo s t`: some number of steps leads from `s` to `t`. -/
inductive RunsTo (s : State) : State → Prop where
  | refl : RunsTo s s
  | step {t u : State} : RunsTo s t → step t = .next u → RunsTo s u

/-- A state some launch (R224) reaches, whatever the image and the configuration. -/
def Launched (s : State) : Prop :=
  ∃ cfg image s0, launch cfg image = .next s0 ∧ RunsTo s0 s

/-- The opcodes of format OP0 (30_encoding.md R82, R84). -/
def opcodes0 : List Byte := [0x01#8, 0x11#8]
/-- The opcodes of format OP1. -/
def opcodes1 : List Byte := [0x45#8, 0x46#8, 0x47#8, 0x50#8, 0x54#8, 0x55#8, 0x56#8]
/-- The opcodes of format OP2 whose two operands are register numbers. -/
def opcodesAlu : List Byte := [0xA0#8, 0xA1#8, 0xA2#8, 0xA3#8, 0xA7#8]
/-- The 15 opcodes of R84. -/
def opcodes : List Byte := opcodes0 ++ opcodes1 ++ 0x82#8 :: opcodesAlu

/-- The fault a step from `s` raises, read off R201 and the priority of R185 from the bytes at `pc` alone;
`none` where R201 has no entry. -/
def faultMatrix (s : State) : Option FaultCause :=
  let a0 := s.pc.toNat
  let op := s.mem.read a0
  let opa := s.mem.read (a0 + 1)
  let opb := s.mem.read (a0 + 2)
  let isAlu := opcodesAlu.contains op
  let isOp2 := isAlu || op == 0x82#8
  let isOp1 := opcodes1.contains op
  if !opcodes.contains op then some .unrecognizedInstruction
  else if (isOp1 && decide (a0 = 255)) || (isOp2 && decide (254 ≤ a0)) then some .addressOutOfBounds
  else if ((isOp1 || isOp2) && decide (7 < opa.toNat)) || (isAlu && decide (7 < opb.toNat)) then
    some .invalidRegisterIndex
  else if op == 0xA3#8 && s.x[opb.toNat]? == some 0#8 then some .divisionByZero
  else if (op == 0x45#8 || op == 0x50#8) && s.x[7] == 0#8 then some .addressOutOfBounds
  else if (op == 0x46#8 || op == 0x11#8) && decide (s.cfg.stackEmpty.toNat ≤ s.x[7].toNat) then
    some .stackUnderflow
  else none

/-- The register numbers an instruction reads (10_state.md R25); a conditional jump reads regA when taken. -/
def registersRead (i : Instr) (s : State) : List RegNum :=
  match i with
  | .halt => []
  | .loadImmediate _ _ => []
  | .print ra => [ra]
  | .mul ra rb => [ra, rb]
  | .add ra rb => [ra, rb]
  | .sub ra rb => [ra, rb]
  | .div ra rb => [ra, rb]
  | .pop _ => [7#8]
  | .push ra => [7#8, ra]
  | .call ra => [7#8, ra]
  | .ret => [7#8]
  | .jump ra => [ra]
  | .compare ra rb => [ra, rb]
  | .jumpIfEqual ra => if s.flagE then [ra] else []
  | .jumpIfNotEqual ra => if s.flagE then [] else [ra]

/-- The register numbers an instruction writes (10_state.md R25). -/
def registersWritten : Instr → List RegNum
  | .halt => []
  | .loadImmediate ra _ => [ra]
  | .print _ => []
  | .mul ra _ => [ra]
  | .add ra _ => [ra]
  | .sub ra _ => [ra]
  | .div ra _ => [ra]
  | .pop ra => [ra, 7#8]
  | .push _ => [7#8]
  | .call _ => [7#8]
  | .ret => [7#8]
  | .jump _ => []
  | .compare _ _ => []
  | .jumpIfEqual _ => []
  | .jumpIfNotEqual _ => []

end Sys2Proof.Machine
end

