-- ==== Sys2Proof/Certificates/Slice0/Obligations.lean ====
section
/-! DEFINITION. The statements about this machine. Each docstring says which rule of spec/ it formalises and,
where a clause rests on a decision of spec/92_eei_decisions.md or on a choice of this model, which one.
`regNum k` is the operand byte of register `k`: the legal register operands are exactly these. -/

open Sys2Proof Sys2Proof.Machine

/-! ### Encoding and decoding (30_encoding.md) -/

/-- R84: words written out from the opcode table decode to the instructions they stand for. The last three
words are rejections: an illegal register number (R89, decision D10), an operand fetch that fails before the
register number 9 is looked at (the order of R94 and R185, decisions D8 and D11; log entry 8), an unlisted
opcode (R85). -/
def Obligations.OpcodeTableWordsDecode : Prop :=
  decode [0b00000001#8] = .ok (.halt, []) ∧
  decode [0b10000010#8, 3#8, 0xFF#8] = .ok (.loadImmediate 3#8 0xFF#8, []) ∧
  decode [0b01000111#8, 7#8] = .ok (.print 7#8, []) ∧
  decode [0b10100001#8, 1#8, 2#8] = .ok (.sub 1#8 2#8, []) ∧
  decode [0b01000101#8, 4#8] = .ok (.push 4#8, []) ∧
  decode [0b00010001#8, 0x55#8] = .ok (.ret, [0x55#8]) ∧
  decode [0b01010110#8, 6#8] = .ok (.jumpIfNotEqual 6#8, []) ∧
  decode [0b10100111#8, 8#8, 0#8] = .error (.invalidRegister 8#8) ∧
  decode [0b10100000#8, 9#8] = .error .missingByte ∧
  decode [0x00#8, 1#8, 2#8] = .error (.unrecognized 0x00#8)

/-- R82, R83, R84: decoding the encoding of any well-formed instruction gives it back, with every operand,
and consumes exactly its bytes. -/
def Obligations.DecodeOfEncodeIsTheInstruction : Prop :=
  ∀ (i : Instr) (rest : List Byte), i.wellFormed = true → decode (encode i ++ rest) = .ok (i, rest)

/-- R83, R84, R89: whatever the decoder accepts is a well-formed instruction whose encoding is the bytes it
consumed, so no two encodings share a meaning. -/
def Obligations.DecodedBytesAreItsEncoding : Prop :=
  ∀ (bs : List Byte) (i : Instr) (rest : List Byte), decode bs = .ok (i, rest) →
    bs = encode i ++ rest ∧ i.wellFormed = true

/-- R81: bits 7:6 of the first byte are the number of operand bytes; no defined opcode has them 3. -/
def Obligations.OpcodeTopBitsGiveLength : Prop :=
  ∀ (op : Byte) (bs : List Byte) (i : Instr) (rest : List Byte), decode (op :: bs) = .ok (i, rest) →
    op.toNat / 64 ≤ 2 ∧ bs.length = op.toNat / 64 + rest.length ∧ (encode i).length = 1 + op.toNat / 64

/-- R85, R87: fetching a byte outside the 15 opcodes halts with UnrecognizedInstruction and leaves memory,
whatever follows it; 0x00 and all of 0xC0 to 0xFF are such bytes, and the 15 opcodes are distinct, so that 241
bytes are. (That nothing else changes either is `FaultMatrixIsExact`.) -/
def Obligations.UnlistedOpcodeIsUnrecognized : Prop :=
  (∀ s : State, s.run = .running → s.mem.read s.pc.toNat ∉ opcodes →
    ∃ t, step s = .next t ∧ t.fault = some .unrecognizedInstruction ∧ t.run = .halted ∧ t.mem = s.mem) ∧
  (∀ op : Byte, 0xC0 ≤ op.toNat → op ∉ opcodes) ∧ 0x00#8 ∉ opcodes ∧
  opcodes.length = 15 ∧ opcodes.Nodup

/-! ### The step (30_encoding.md R94) -/

/-- R94: a Running machine whose bytes at `pc` decode to `i` does exactly `exec i`; nothing is added around it
(PC is still the instruction's own address when `exec` begins). -/
def Obligations.StepRunsDecodedInstruction : Prop :=
  ∀ (s : State) (i : Instr) (rest : List Byte), s.run = .running → decode s.fetchWindow = .ok (i, rest) →
    step s = exec i s

/-- R94, R82, R95: a Running machine that holds the encoding of a well-formed `i` in the cells from `pc` on,
all below address 256, runs `i`; bytes beyond the encoding do not matter. -/
def Obligations.InstructionInMemoryRuns : Prop :=
  ∀ (s : State) (i : Instr), s.run = .running → i.wellFormed = true →
    (∀ (k : Nat) (h : k < (encode i).length),
      s.pc.toNat + k < 256 ∧ s.mem.read (s.pc.toNat + k) = (encode i)[k]) →
    step s = exec i s

/-- R36: only a Halted machine takes no step (that the outcome is then `Fault.halted` is the model's choice,
log entry 2), and a Running machine always does: no program state is stuck, faulted or refused. -/
def Obligations.RunningMachineAlwaysSteps : Prop :=
  ∀ s : State, (s.run = .halted → step s = .fault .halted) ∧ (s.run = .running → ∃ t, step s = .next t)

/-- R201, R185, R183 with decisions D6, D7, D8, D10, D11, D12, D14 (log entries 3, 7, 8, 10): a step raises
exactly the fault the matrix names, leaving all else unchanged; where the matrix has no entry it raises none,
and stays Running unless the opcode is HALT's. -/
def Obligations.FaultMatrixIsExact : Prop :=
  ∀ s : State, s.run = .running →
    (∀ c, faultMatrix s = some c → step s = .next { s with fault := some c, run := .halted }) ∧
    (faultMatrix s = none →
      ∃ t, step s = .next t ∧ t.fault = s.fault ∧
        (t.run = .running ↔ s.mem.read s.pc.toNat ≠ 0x01#8))

/-- R183, R184 with decision D12: a step that raises a fault does `fault <- code; run <- Halted` and nothing
else, the cause is one of the five that can be raised, and the machine then takes no further step (that the
outcome is then `Fault.halted` is the model's choice, log entry 2). -/
def Obligations.TakingAFaultOnlyHalts : Prop :=
  ∀ (s t : State) (c : FaultCause), s.run = .running → s.fault = none → step s = .next t → t.fault = some c →
    t = { s with fault := some c, run := .halted } ∧
    (c = .addressOutOfBounds ∨ c = .invalidRegisterIndex ∨ c = .divisionByZero ∨ c = .stackUnderflow ∨
      c = .unrecognizedInstruction) ∧
    step t = .fault .halted

/-- R186: no instruction clears a recorded fault; and once a run from a state that meets the invariant has
recorded one, no step is left to change it. That the outcome there is `Fault.halted` is the model's choice
(log entry 2), made beside decision D21. -/
def Obligations.FaultIsRaisedOnceAndStays : Prop :=
  (∀ (i : Instr) (s t : State) (c : FaultCause), exec i s = .next t → s.fault = some c → t.fault ≠ none) ∧
  (∀ (s t u : State) (c : FaultCause), s.Inv → RunsTo s t → t.fault = some c →
    step t = .fault .halted ∧ (RunsTo t u → u = t))

/-! ### HALT, LOAD-IMMEDIATE, PRINT (40_system_data.md) -/

/-- R110 (that PC advances by 1 is decision D15): HALT halts, changes PC and nothing else, and `fault` stays. -/
def Obligations.HaltCompletes : Prop :=
  ∀ s : State, exec .halt s = .next { s with pc := s.pc + 1#8, run := .halted }

/-- R111: LOAD-IMMEDIATE writes every immediate to every register, SP included, and changes nothing else but PC. -/
def Obligations.LoadImmediateCompletes : Prop :=
  ∀ (s : State) (k : Fin 8) (imm : Byte),
    exec (.loadImmediate (regNum k) imm) s = .next { s with x := s.x.set k imm, pc := s.pc + 3#8 }

/-- R112: PRINT appends the register's value to the output and changes nothing else but PC. -/
def Obligations.PrintCompletes : Prop :=
  ∀ (s : State) (k : Fin 8),
    exec (.print (regNum k)) s = .next { s with out := s.out ++ [s.x[k]], pc := s.pc + 2#8 }

/-- R38, R112: an instruction leaves the output as it is or, being PRINT of a legal register, appends that
register's value. -/
def Obligations.OnlyPrintEmitsOutput : Prop :=
  ∀ (i : Instr) (s t : State), exec i s = .next t →
    t.out = s.out ∨ ∃ k, i = .print (regNum k) ∧ t.out = s.out ++ [s.x[k]]

/-! ### The ALU (41_alu.md) -/

/-- R120 to R124, R126, R127: on every two registers, the same one twice included, ADD, SUB and MUL write the
exact result modulo 256 to regA, DIV the integer quotient of the two values as unsigned numbers (decision D16,
log entry 12), failing with DivisionByZero on a zero divisor, COMPARE only FL, by the two values alone; the
arithmetic four leave FL, and all five leave everything else but PC. -/
def Obligations.AluContract : Prop :=
  ∀ (s : State) (i j : Fin 8),
    (∃ v : Byte, v.toNat = (s.x[i].toNat + s.x[j].toNat) % 256 ∧
      exec (.add (regNum i) (regNum j)) s = .next { s with x := s.x.set i v, pc := s.pc + 3#8 }) ∧
    (∃ v : Byte, (v.toNat : Int) = ((s.x[i].toNat : Int) - s.x[j].toNat) % 256 ∧
      exec (.sub (regNum i) (regNum j)) s = .next { s with x := s.x.set i v, pc := s.pc + 3#8 }) ∧
    (∃ v : Byte, v.toNat = (s.x[i].toNat * s.x[j].toNat) % 256 ∧
      exec (.mul (regNum i) (regNum j)) s = .next { s with x := s.x.set i v, pc := s.pc + 3#8 }) ∧
    (s.x[j] ≠ 0#8 → ∃ v : Byte, v.toNat = s.x[i].toNat / s.x[j].toNat ∧
      exec (.div (regNum i) (regNum j)) s = .next { s with x := s.x.set i v, pc := s.pc + 3#8 }) ∧
    (s.x[j] = 0#8 → ∃ t, exec (.div (regNum i) (regNum j)) s = .next t ∧
      t.fault = some .divisionByZero ∧ t.run = .halted) ∧
    (∃ v : Byte, exec (.compare (regNum i) (regNum j)) s = .next { s with fl := v, pc := s.pc + 3#8 } ∧
      ∀ (s' : State) (i' j' : Fin 8), s'.x[i'] = s.x[i] → s'.x[j'] = s.x[j] →
        exec (.compare (regNum i') (regNum j')) s' = .next { s' with fl := v, pc := s'.pc + 3#8 })

/-- R125 (bit positions D1, unsigned order D16): COMPARE sets exactly E, G or L as the two unsigned values
compare, overwriting the whole of FL, and changes nothing else but PC. -/
def Obligations.CompareCompletes : Prop :=
  ∀ (s : State) (i j : Fin 8), ∃ v : Byte,
    exec (.compare (regNum i) (regNum j)) s = .next { s with fl := v, pc := s.pc + 3#8 } ∧
    (s.x[i].toNat = s.x[j].toNat → v = 0x01#8) ∧
    (s.x[i].toNat > s.x[j].toNat → v = 0x02#8) ∧
    (s.x[i].toNat < s.x[j].toNat → v = 0x04#8)

/-- R129: an ALU instruction that names one register twice. -/
def Obligations.AluSameRegisterTwice : Prop :=
  ∀ (s : State) (r : Fin 8),
    exec (.add (regNum r) (regNum r)) s =
      .next { s with x := s.x.set r (s.x[r] <<< 1), pc := s.pc + 3#8 } ∧
    exec (.sub (regNum r) (regNum r)) s = .next { s with x := s.x.set r 0#8, pc := s.pc + 3#8 } ∧
    exec (.mul (regNum r) (regNum r)) s =
      .next { s with x := s.x.set r (s.x[r] * s.x[r]), pc := s.pc + 3#8 } ∧
    (s.x[r] ≠ 0#8 →
      exec (.div (regNum r) (regNum r)) s = .next { s with x := s.x.set r 1#8, pc := s.pc + 3#8 }) ∧
    exec (.compare (regNum r) (regNum r)) s = .next { s with fl := 0x01#8, pc := s.pc + 3#8 }

/-! ### The flags register (10_state.md R32 to R35) -/

/-- R34: only COMPARE writes FL; of FL only E is read, and only by the two conditional jumps: changing FL
without changing E, or changing it at will for any other instruction, changes nothing else of the next state. -/
def Obligations.FlagsWrittenByCompareAndOnlyEIsRead : Prop :=
  ∀ (i : Instr) (s t : State), exec i s = .next t →
    ((∀ ra rb, i ≠ .compare ra rb) → t.fl = s.fl) ∧
    ∀ v : Byte, (v.getLsbD 0 = s.fl.getLsbD 0 ∨ ∀ r, i ≠ .jumpIfEqual r ∧ i ≠ .jumpIfNotEqual r) →
      ∃ t', exec i { s with fl := v } = .next t' ∧ { t' with fl := t.fl } = t ∧
        ((∃ a b, i = .compare (regNum a) (regNum b)) → t'.fl = t.fl)

/-- R35: no sequence of steps leads from one of the four legal values of FL to any other; COMPARE of legal
registers leaves exactly one flag set; no instruction brings back the value with none set. -/
def Obligations.FlagsHoldFourLegalValues : Prop :=
  (∀ s t : State, RunsTo s t → (s.fl = 0x00#8 ∨ s.fl = 0x01#8 ∨ s.fl = 0x02#8 ∨ s.fl = 0x04#8) →
    (t.fl = 0x00#8 ∨ t.fl = 0x01#8 ∨ t.fl = 0x02#8 ∨ t.fl = 0x04#8)) ∧
  (∀ (s : State) (i j : Fin 8), ∃ t, exec (.compare (regNum i) (regNum j)) s = .next t ∧
    (t.fl = 0x01#8 ∨ t.fl = 0x02#8 ∨ t.fl = 0x04#8)) ∧
  (∀ (i : Instr) (s t : State), exec i s = .next t → s.fl ≠ 0x00#8 → t.fl ≠ 0x00#8)

/-! ### The stack (42_stack.md) -/

/-- R141 for SP ≠ 0: SP is decremented, the register's value is written at the new SP (PUSH R7 writes the
decremented SP, decision D17), PC advances by 2, and nothing else changes. -/
def Obligations.PushCompletes : Prop :=
  ∀ (s : State) (k : Fin 8), s.x[7] ≠ 0#8 →
    exec (.push (regNum k)) s = .next { s with
      x := s.x.set 7 (s.x[7] - 1#8)
      mem := s.mem.write (s.x[7].toNat - 1) (if k = 7 then s.x[7] - 1#8 else s.x[k])
      pc := s.pc + 2#8 }

/-- R142 for SP below `STACK_EMPTY` (an open parameter, decision D6): the byte at SP goes to the register,
then SP is incremented (POP R7 leaves the popped byte plus 1, D17), PC advances by 2; memory keeps its bytes. -/
def Obligations.PopCompletes : Prop :=
  ∀ (s : State) (k : Fin 8), s.x[7].toNat < s.cfg.stackEmpty.toNat →
    exec (.pop (regNum k)) s = .next { s with
      x := if k = 7 then s.x.set 7 (s.mem.read s.x[7].toNat + 1#8)
        else (s.x.set k (s.mem.read s.x[7].toNat)).set 7 (s.x[7] + 1#8)
      pc := s.pc + 2#8 }

/-- R151 for SP ≠ 0: `(a0 + 2) mod 256` is pushed and PC is the register's value, read after SP is
decremented (CALL R7, D17); nothing else changes. -/
def Obligations.CallCompletes : Prop :=
  ∀ (s : State) (k : Fin 8), s.x[7] ≠ 0#8 →
    exec (.call (regNum k)) s = .next { s with
      x := s.x.set 7 (s.x[7] - 1#8)
      mem := s.mem.write (s.x[7].toNat - 1) (s.pc + 2#8)
      pc := if k = 7 then s.x[7] - 1#8 else s.x[k] }

/-- R152 for SP below `STACK_EMPTY` (D6): the byte at SP is the new PC, SP is incremented; nothing else changes. -/
def Obligations.ReturnCompletes : Prop :=
  ∀ s : State, s.x[7].toNat < s.cfg.stackEmpty.toNat →
    exec .ret s = .next { s with x := s.x.set 7 (s.x[7] + 1#8), pc := s.mem.read s.x[7].toNat }

/-- R145 with decisions D6, D7, D12: a push fails exactly at SP = 0 and a pop exactly at SP ≥ `STACK_EMPTY`,
before anything changes. -/
def Obligations.StackBoundFaults : Prop :=
  (∀ (s : State) (k : Fin 8), s.x[7] = 0#8 →
    exec (.push (regNum k)) s = .next { s with fault := some .addressOutOfBounds, run := .halted } ∧
    exec (.call (regNum k)) s = .next { s with fault := some .addressOutOfBounds, run := .halted }) ∧
  (∀ (s : State) (k : Fin 8), s.cfg.stackEmpty.toNat ≤ s.x[7].toNat →
    exec (.pop (regNum k)) s = .next { s with fault := some .stackUnderflow, run := .halted } ∧
    exec .ret s = .next { s with fault := some .stackUnderflow, run := .halted })

/-- R54: an instruction that is neither PUSH nor CALL leaves every cell; PUSH and CALL leave every cell but
the one at the address a push forms (`State.pushAddr`, `SP - 1`), and that one too when they raise a fault. -/
def Obligations.OnlyPushAndCallStore : Prop :=
  ∀ (i : Instr) (s t : State), exec i s = .next t →
    ((∀ r, i ≠ .push r ∧ i ≠ .call r) → ∀ a, t.mem.read a = s.mem.read a) ∧
    (∀ r, i = .push r ∨ i = .call r → ∀ a : Nat,
      ((a : Int) ≠ s.pushAddr ∨ t.fault ≠ s.fault) → t.mem.read a = s.mem.read a)

/-- R144: PUSH of a register other than R7 and then POP of it, stored anywhere the pushed byte does not hit the
POP, restores the register and SP; only the pushed cell and PC differ. -/
def Obligations.PushThenPopRestores : Prop :=
  ∀ (s : State) (k : Fin 8), k ≠ 7 → s.run = .running →
    s.pc.toNat < 255 → (s.pc + 2#8).toNat < 255 →
    s.mem.read s.pc.toNat = 0x45#8 → s.mem.read (s.pc.toNat + 1) = regNum k →
    s.mem.read (s.pc + 2#8).toNat = 0x46#8 → s.mem.read ((s.pc + 2#8).toNat + 1) = regNum k →
    1 ≤ s.x[7].toNat → s.x[7].toNat ≤ s.cfg.stackEmpty.toNat →
    s.x[7].toNat - 1 ≠ (s.pc + 2#8).toNat → s.x[7].toNat - 1 ≠ (s.pc + 2#8).toNat + 1 →
    ∃ t, step s = .next t ∧ step t = .next { s with
      mem := s.mem.write (s.x[7].toNat - 1) s.x[k]
      pc := s.pc + 4#8 }

/-! ### Control transfer (43_control_transfer.md) -/

/-- R153: JUMP sets PC to the register's value and changes nothing else. -/
def Obligations.JumpCompletes : Prop :=
  ∀ (s : State) (k : Fin 8), exec (.jump (regNum k)) s = .next { s with pc := s.x[k] }

/-- R154, R155 (E is bit 0 of FL, decision D1): JUMP-IF-EQUAL jumps when E is set, JUMP-IF-NOT-EQUAL when it is
clear; otherwise PC advances by 2. Nothing but PC changes. -/
def Obligations.ConditionalJumpsComplete : Prop :=
  ∀ (s : State) (k : Fin 8),
    exec (.jumpIfEqual (regNum k)) s =
      .next { s with pc := if s.fl.getLsbD 0 = true then s.x[k] else s.pc + 2#8 } ∧
    exec (.jumpIfNotEqual (regNum k)) s =
      .next { s with pc := if s.fl.getLsbD 0 = false then s.x[k] else s.pc + 2#8 }

/-- R156: CALL, RETURN and JUMP, when they raise no fault, set PC to the target and a conditional jump to the
target or to the sequential address; the encoded length is never added to a target. The target of CALL R7 is
the register read after SP is decremented (decision D17, log entry 11). -/
def Obligations.TransferWritesTargetOrNext : Prop :=
  ∀ (s : State) (k : Fin 8),
    (s.x[7] ≠ 0#8 → ∃ t, exec (.call (regNum k)) s = .next t ∧ t.pc = t.x[k]) ∧
    (s.x[7].toNat < s.cfg.stackEmpty.toNat → ∃ t, exec .ret s = .next t ∧ t.pc = t.mem.read s.x[7].toNat) ∧
    (∃ t, exec (.jump (regNum k)) s = .next t ∧ t.pc = t.x[k]) ∧
    (∃ t u, exec (.jumpIfEqual (regNum k)) s = .next t ∧ exec (.jumpIfNotEqual (regNum k)) s = .next u ∧
      ((t.pc = s.x[k] ∧ u.pc = s.pc + 2#8) ∨ (t.pc = s.pc + 2#8 ∧ u.pc = s.x[k])))

/-- R158: CALL and then a RETURN at its target restores PC to the instruction after the CALL and SP to its value
before it; only the pushed cell and PC differ. The target is read after SP is decremented, so CALL R7 falls
under the hypothesis that the target is not the pushed cell. -/
def Obligations.CallThenReturnRestores : Prop :=
  ∀ (s : State) (k : Fin 8), s.run = .running → s.pc.toNat < 255 →
    s.mem.read s.pc.toNat = 0x50#8 → s.mem.read (s.pc.toNat + 1) = regNum k →
    1 ≤ s.x[7].toNat → s.x[7].toNat ≤ s.cfg.stackEmpty.toNat →
    (s.decSp.reg k).toNat ≠ s.x[7].toNat - 1 → s.mem.read (s.decSp.reg k).toNat = 0x11#8 →
    ∃ t, step s = .next t ∧ step t = .next { s with
      mem := s.mem.write (s.x[7].toNat - 1) (s.pc + 2#8)
      pc := s.pc + 2#8 }

/-! ### Registers, PC and memory as a whole -/

/-- R22, R89 with decisions D10, D12: an instruction with a register number above 7 raises InvalidRegisterIndex
and does nothing else, on every path, whatever the state. -/
def Obligations.IllegalRegisterNumberFaults : Prop :=
  ∀ (i : Instr) (s : State), i.wellFormed = false →
    exec i s = .next { s with fault := some .invalidRegisterIndex, run := .halted }

/-- R25. What is outside an instruction's row does not matter: a register outside its row of written registers
is unchanged; a register outside its row of read registers has no influence: changing it changes no other part
of the next state, and that register itself is either overwritten alike or simply kept.
What is in the row does matter: each register written is changed, without a fault, from some state; each
register read has an influence in some state in which it is read, but for SUB and COMPARE of one register twice,
which read it and have one result for all its values (R129). -/
def Obligations.RegistersReadAndWrittenAsTabled : Prop :=
  (∀ (i : Instr) (s t : State) (k : Fin 8) (v : Byte), i.wellFormed = true → exec i s = .next t →
    (regNum k ∉ registersWritten i → t.x[k] = s.x[k]) ∧
    (regNum k ∉ registersRead i s →
      ∃ t', exec i { s with x := s.x.set k v } = .next t' ∧
        { t' with x := t'.x.set k 0#8 } = { t with x := t.x.set k 0#8 } ∧
        (t'.x[k] = t.x[k] ∨ (t'.x[k] = v ∧ t.x[k] = s.x[k])))) ∧
  (∀ (i : Instr) (k : Fin 8), i.wellFormed = true → regNum k ∈ registersWritten i →
    ∃ s t : State, exec i s = .next t ∧ t.fault = s.fault ∧ t.x[k] ≠ s.x[k]) ∧
  (∀ (i : Instr) (k : Fin 8) (s0 : State), i.wellFormed = true → regNum k ∈ registersRead i s0 →
    i ≠ .sub (regNum k) (regNum k) → i ≠ .compare (regNum k) (regNum k) →
    ∃ (s t t' : State) (v : Byte), regNum k ∈ registersRead i s ∧ exec i s = .next t ∧
      exec i { s with x := s.x.set k v } = .next t' ∧
      ¬ ({ t' with x := t'.x.set k 0#8 } = { t with x := t.x.set k 0#8 } ∧
        (t'.x[k] = t.x[k] ∨ (t'.x[k] = v ∧ t.x[k] = s.x[k]))))

/-- R31: PC reaches no register, flag or output; of memory only CALL's push depends on it, and that byte is
`(a0 + 2) mod 256`; and an instruction outside the five control transfers sets it only to the address after its
own encoding, or leaves it when it raises a fault. -/
def Obligations.OnlyCallDependsOnPc : Prop :=
  ∀ (i : Instr) (s t : State) (p : Byte), exec i s = .next t →
    (∃ t', exec i { s with pc := p } = .next t' ∧ t'.x = t.x ∧ t'.fl = t.fl ∧ t'.out = t.out ∧
      t'.run = t.run ∧ t'.fault = t.fault ∧ ((∀ r, i ≠ .call r) → t'.mem = t.mem)) ∧
    ((∀ r, i ≠ .call r ∧ i ≠ .jump r ∧ i ≠ .jumpIfEqual r ∧ i ≠ .jumpIfNotEqual r) → i ≠ .ret →
      t.pc = s.pc + BitVec.ofNat 8 (encode i).length ∨ t = s.raise .invalidRegisterIndex ∨
        t = s.raise .divisionByZero ∨ t = s.raise .addressOutOfBounds ∨ t = s.raise .stackUnderflow) ∧
    (∀ k, i = .call (regNum k) → s.x[7] ≠ 0#8 → t.mem.read (s.x[7].toNat - 1) = s.pc + 2#8)

/-- R51, R52: a memory access at an exact integer address outside [0,255] fails with AddressOutOfBounds; inside,
a read gives the cell and a write sets that one cell, as a later read shows, and changes nothing else. -/
def Obligations.MemoryPortContract : Prop :=
  ∀ (s : State) (addr : Int) (v : Byte),
    (addr < 0 ∨ 255 < addr →
      s.memRead addr = .error .addressOutOfBounds ∧ s.memWrite addr v = .error .addressOutOfBounds) ∧
    (0 ≤ addr → addr ≤ 255 →
      s.memRead addr = .ok (s.mem.read addr.toNat) ∧
      ∃ t, s.memWrite addr v = .ok t ∧ { t with mem := s.mem } = s ∧ t.memRead addr = .ok v ∧
        ∀ a : Nat, (a : Int) ≠ addr → t.mem.read a = s.mem.read a)

/-- R50, the model's representation: two memories in canonical form that read alike everywhere are equal data. -/
def Obligations.CanonicalMemoryIsUnique : Prop :=
  ∀ m m' : Memory, m.wf = true → m'.wf = true → (∀ a, m.read a = m'.read a) → m = m'

/-- R66: after a PUSH of any register, or a CALL through any, every byte the next step can fetch is the pushed
byte where the push stored it, opcode or operand, and what memory held before everywhere else. (PUSH R7 pushes
the decremented SP, decision D17, log entry 11.) -/
def Obligations.FetchSeesThePushedByte : Prop :=
  ∀ (s : State) (k : Fin 8), s.x[7] ≠ 0#8 →
    (∃ t, exec (.push (regNum k)) s = .next t ∧ ∀ n : Nat, n < 3 → t.pc.toNat + n < 256 →
      t.fetchWindow[n]? = some (if t.pc.toNat + n = s.x[7].toNat - 1
        then (if k = 7 then s.x[7] - 1#8 else s.x[k]) else s.mem.read (t.pc.toNat + n))) ∧
    (∃ t, exec (.call (regNum k)) s = .next t ∧ ∀ n : Nat, n < 3 → t.pc.toNat + n < 256 →
      t.fetchWindow[n]? = some (if t.pc.toNat + n = s.x[7].toNat - 1
        then s.pc + 2#8 else s.mem.read (t.pc.toNat + n)))

/-! ### Reset, launch and the host (10_state.md R40; 70_reset_and_hazards.md R220, R224, R227) -/

/-- R40, R220: what reset leaves. SP and Running are the source's; PC 0, FL 0, R0 to R6 0, zero memory, no fault
and empty output are the spec's decisions D2 to D5, D12, D27; the `STACK_EMPTY` value is R7's default (log entry 3). -/
def Obligations.ResetValues : Prop :=
  State.reset.x[7] = 0xF4#8 ∧ State.reset.run = .running ∧ State.reset.pc = 0#8 ∧ State.reset.fl = 0#8 ∧
  (∀ k : Fin 8, k ≠ 7 → State.reset.x[k] = 0#8) ∧ (∀ a, State.reset.mem.read a = 0#8) ∧
  State.reset.fault = none ∧ State.reset.out = [] ∧ State.reset.cfg.stackEmpty = 0xF4#8

/-- The invariant holds at reset, whatever the configuration. -/
def Obligations.ResetMeetsInvariant : Prop :=
  ∀ cfg : Config, (State.resetWith cfg).Inv

/-- From every state that meets the invariant (memory canonical, FL legal, a fault only when Halted, no reserved
fault) a step leads to one that meets it; R35, R41, R186, R188. -/
def Obligations.StepKeepsInvariant : Prop :=
  ∀ s t : State, s.Inv → step s = .next t → t.Inv

/-- R224, R68 with decisions D5, D20, D26: a launch puts byte `i` of an image of at most 256 bytes at address
`i`, 0x00 in every other cell, and leaves everything else at reset; a longer image is refused. -/
def Obligations.LaunchLoadsTheImage : Prop :=
  ∀ (cfg : Config) (image : List Byte),
    (image.length ≤ 256 → ∃ s, launch cfg image = .next s ∧ s = { State.resetWith cfg with mem := s.mem } ∧
      ∀ a, s.mem.read a = image.getD a 0#8) ∧
    (256 < image.length → launch cfg image = .refused .imageTooLong)

/-- Every state any launch reaches meets the invariant and has the launch's configuration, which the model
carries in State (log entry 3); that memory stays canonical is about the model's representation (log entry 19). -/
def Obligations.LaunchedStatesMeetInvariant : Prop :=
  ∀ (cfg : Config) (image : List Byte) (s t : State), launch cfg image = .next s → RunsTo s t →
    t.Inv ∧ t.cfg = cfg

/-- R227, R220, R228 (decisions D19, D21, D26): reset lands in any state, Running or Halted, and leaves the reset
state of the same configuration; a load after it is a launch; a load into any state no reset leaves is refused
(the model's choice, log entry 21); the engine's step is `step`; the whole state is read when Halted and not
before, and while Running `halted` and `fault_cause` read 0. -/
def Obligations.HostInteractions : Prop :=
  ∀ (s : State) (image : List Byte),
    hostAct .reset s = .next (State.resetWith s.cfg) ∧
    hostAct (.load image) (State.resetWith s.cfg) = launch s.cfg image ∧
    (s ≠ State.resetWith s.cfg → hostAct (.load image) s = .refused .loadAfterStart) ∧
    hostAct .step s = step s ∧
    (s.run = .halted → s.hostRead = some s) ∧ (s.run = .running → s.hostRead = none) ∧
    (s.Inv → s.run = .running → s.hostView = ⟨s.out, false, 0#3⟩)

/-- R220, R228: a Halted machine answers no host action but reset, which leaves the reset state; and nothing
but reset clears a recorded fault, Halted or not. -/
def Obligations.OnlyResetLeavesHalted : Prop :=
  ∀ (a : HostAction) (s t : State), hostAct a s = .next t →
    (s.run = .halted → a = .reset ∧ t = State.resetWith s.cfg) ∧
    (s.fault ≠ none → t.fault = none → a = .reset)

/-- Whatever the host does (R227), the invariant is kept, and with it the configuration; from every state that
meets it. -/
def Obligations.HostActionsKeepInvariant : Prop :=
  ∀ (a : HostAction) (s t : State), s.Inv → hostAct a s = .next t → t.Inv ∧ t.cfg = s.cfg

/-- R181 (the numbers are decision D13): the codes at the `fault_cause` boundary tell the causes apart. -/
def Obligations.FaultCodes : Prop :=
  (∀ s : State, s.fault = none → s.faultCode = 0#3) ∧
  (∀ s : State, (s.raise .addressOutOfBounds).faultCode = 1#3 ∧ (s.raise .invalidRegisterIndex).faultCode = 2#3 ∧
    (s.raise .divisionByZero).faultCode = 3#3 ∧ (s.raise .stackUnderflow).faultCode = 4#3 ∧
    (s.raise .stackOverflow).faultCode = 5#3 ∧ (s.raise .unrecognizedInstruction).faultCode = 6#3 ∧
    (s.raise .unsupportedALUOperation).faultCode = 7#3) ∧
  ∀ s t : State, s.faultCode = t.faultCode → s.fault = t.fault
end

