-- ==== Sys2Proof/Laws/State.lean ====
section
/-! SUPPORT. One lemma per field per update of State, true by definition. -/

namespace Sys2Proof.Machine

variable (s : State) (i : Fin 8) (v : Byte) (n : Nat) (c : FaultCause)

@[simp] theorem setReg_pc : (s.setReg i v).pc = s.pc := rfl
@[simp] theorem setReg_fl : (s.setReg i v).fl = s.fl := rfl
@[simp] theorem setReg_mem : (s.setReg i v).mem = s.mem := rfl
@[simp] theorem setReg_run : (s.setReg i v).run = s.run := rfl
@[simp] theorem setReg_fault : (s.setReg i v).fault = s.fault := rfl
@[simp] theorem setReg_out : (s.setReg i v).out = s.out := rfl
@[simp] theorem setReg_cfg : (s.setReg i v).cfg = s.cfg := rfl

@[simp] theorem setPc_x : (s.setPc v).x = s.x := rfl
@[simp] theorem setPc_pc : (s.setPc v).pc = v := rfl
@[simp] theorem setPc_fl : (s.setPc v).fl = s.fl := rfl
@[simp] theorem setPc_mem : (s.setPc v).mem = s.mem := rfl
@[simp] theorem setPc_run : (s.setPc v).run = s.run := rfl
@[simp] theorem setPc_fault : (s.setPc v).fault = s.fault := rfl
@[simp] theorem setPc_out : (s.setPc v).out = s.out := rfl
@[simp] theorem setPc_cfg : (s.setPc v).cfg = s.cfg := rfl
@[simp] theorem setPc_reg : (s.setPc v).reg i = s.reg i := rfl

@[simp] theorem advance_x : (s.advance n).x = s.x := rfl
@[simp] theorem advance_pc : (s.advance n).pc = s.pcAfter n := rfl
@[simp] theorem advance_fl : (s.advance n).fl = s.fl := rfl
@[simp] theorem advance_mem : (s.advance n).mem = s.mem := rfl
@[simp] theorem advance_run : (s.advance n).run = s.run := rfl
@[simp] theorem advance_fault : (s.advance n).fault = s.fault := rfl
@[simp] theorem advance_out : (s.advance n).out = s.out := rfl
@[simp] theorem advance_cfg : (s.advance n).cfg = s.cfg := rfl
@[simp] theorem advance_reg : (s.advance n).reg i = s.reg i := rfl

@[simp] theorem setFl_x : (s.setFl v).x = s.x := rfl
@[simp] theorem setFl_pc : (s.setFl v).pc = s.pc := rfl
@[simp] theorem setFl_fl : (s.setFl v).fl = v := rfl
@[simp] theorem setFl_mem : (s.setFl v).mem = s.mem := rfl
@[simp] theorem setFl_run : (s.setFl v).run = s.run := rfl
@[simp] theorem setFl_fault : (s.setFl v).fault = s.fault := rfl
@[simp] theorem setFl_out : (s.setFl v).out = s.out := rfl
@[simp] theorem setFl_cfg : (s.setFl v).cfg = s.cfg := rfl
@[simp] theorem setFl_reg : (s.setFl v).reg i = s.reg i := rfl

@[simp] theorem output_x : (s.output v).x = s.x := rfl
@[simp] theorem output_pc : (s.output v).pc = s.pc := rfl
@[simp] theorem output_fl : (s.output v).fl = s.fl := rfl
@[simp] theorem output_mem : (s.output v).mem = s.mem := rfl
@[simp] theorem output_run : (s.output v).run = s.run := rfl
@[simp] theorem output_fault : (s.output v).fault = s.fault := rfl
@[simp] theorem output_out : (s.output v).out = s.out ++ [v] := rfl
@[simp] theorem output_cfg : (s.output v).cfg = s.cfg := rfl
@[simp] theorem output_reg : (s.output v).reg i = s.reg i := rfl

@[simp] theorem halt_x : s.halt.x = s.x := rfl
@[simp] theorem halt_pc : s.halt.pc = s.pc := rfl
@[simp] theorem halt_fl : s.halt.fl = s.fl := rfl
@[simp] theorem halt_mem : s.halt.mem = s.mem := rfl
@[simp] theorem halt_run : s.halt.run = .halted := rfl
@[simp] theorem halt_fault : s.halt.fault = s.fault := rfl
@[simp] theorem halt_out : s.halt.out = s.out := rfl
@[simp] theorem halt_cfg : s.halt.cfg = s.cfg := rfl

@[simp] theorem raise_x : (s.raise c).x = s.x := rfl
@[simp] theorem raise_pc : (s.raise c).pc = s.pc := rfl
@[simp] theorem raise_fl : (s.raise c).fl = s.fl := rfl
@[simp] theorem raise_mem : (s.raise c).mem = s.mem := rfl
@[simp] theorem raise_run : (s.raise c).run = .halted := rfl
@[simp] theorem raise_fault : (s.raise c).fault = some c := rfl
@[simp] theorem raise_out : (s.raise c).out = s.out := rfl
@[simp] theorem raise_cfg : (s.raise c).cfg = s.cfg := rfl

@[simp] theorem decSp_pc : s.decSp.pc = s.pc := rfl
@[simp] theorem decSp_fl : s.decSp.fl = s.fl := rfl
@[simp] theorem decSp_mem : s.decSp.mem = s.mem := rfl
@[simp] theorem decSp_run : s.decSp.run = s.run := rfl
@[simp] theorem decSp_fault : s.decSp.fault = s.fault := rfl
@[simp] theorem decSp_out : s.decSp.out = s.out := rfl
@[simp] theorem decSp_cfg : s.decSp.cfg = s.cfg := rfl

@[simp] theorem incSp_pc : s.incSp.pc = s.pc := rfl
@[simp] theorem incSp_fl : s.incSp.fl = s.fl := rfl
@[simp] theorem incSp_mem : s.incSp.mem = s.mem := rfl
@[simp] theorem incSp_run : s.incSp.run = s.run := rfl
@[simp] theorem incSp_fault : s.incSp.fault = s.fault := rfl
@[simp] theorem incSp_out : s.incSp.out = s.out := rfl
@[simp] theorem incSp_cfg : s.incSp.cfg = s.cfg := rfl

/-- A register read after a register write. -/
theorem setReg_reg (j : Fin 8) : (s.setReg i v).reg j = if i = j then v else s.reg j := by
  simp [State.setReg, State.reg, Vector.getElem_set, Fin.ext_iff]

@[simp] theorem setReg_reg_same : (s.setReg i v).reg i = v := by simp [setReg_reg]

theorem setReg_reg_other {j : Fin 8} (h : i ≠ j) : (s.setReg i v).reg j = s.reg j := by
  simp [setReg_reg, h]

end Sys2Proof.Machine
end

