-- ==== Sys2Proof/Laws/Memory.lean ====
section
/-! SUPPORT. Memory: read after write, and every operation keeps the canonical form. -/

namespace Sys2Proof.Machine

@[simp] theorem Memory.read_nil (a : Nat) : Memory.read [] a = Memory.fill := rfl

theorem Memory.read_erase (m : Memory) (k a : Nat) :
    (m.erase k).read a = if a = k then Memory.fill else m.read a := by
  induction m with
  | nil => simp [Memory.erase]
  | cons c m ih =>
    obtain ⟨b, v⟩ := c
    simp only [Memory.erase, List.filter_cons, Memory.read] at ih ⊢
    by_cases hb : b = k
    · subst hb
      simp only [ne_eq, not_true_eq_false, decide_false, Bool.false_eq_true, ↓reduceIte, ih]
      by_cases ha : a = b
      · simp [ha]
      · simp [ha, Ne.symm ha]
    · simp only [ne_eq, hb, not_false_eq_true, decide_true, ↓reduceIte, Memory.read, ih]
      by_cases ha : b = a
      · subst ha; simp [hb]
      · simp [ha]

theorem Memory.read_insertCell (m : Memory) (k a : Nat) (v : Byte) :
    (Memory.insertCell k v (m.erase k)).read a = if a = k then v else m.read a := by
  have key : ∀ l : Memory, (∀ c ∈ l, c.1 ≠ k) →
      (Memory.insertCell k v l).read a = if a = k then v else Memory.read l a := by
    intro l
    induction l with
    | nil => intro _; simp [Memory.insertCell, Memory.read, eq_comm]
    | cons c l ih =>
      intro hl
      obtain ⟨b, w⟩ := c
      have hb : b ≠ k := hl (b, w) (by simp)
      have ih' := ih fun c hc => hl c (by simp [hc])
      simp only [Memory.insertCell]
      split
      · by_cases ha : a = k
        · simp [Memory.read, ha]
        · simp [Memory.read, ha, Ne.symm ha]
      · by_cases ha : b = a
        · subst ha; simp [Memory.read, hb]
        · simp [Memory.read, ha, ih']
  rw [key _ (by simp [Memory.erase]), Memory.read_erase]
  split <;> rfl

/-- A read after a write: the written cell holds the value, every other cell is as before (R52, R58). -/
theorem Memory.read_write (m : Memory) (k a : Nat) (v : Byte) :
    (m.write k v).read a = if a = k then v else m.read a := by
  unfold Memory.write
  split
  · rename_i hv; rw [Memory.read_erase, hv]
  · exact Memory.read_insertCell m k a v

@[simp] theorem Memory.read_write_same (m : Memory) (k : Nat) (v : Byte) : (m.write k v).read k = v := by
  simp [Memory.read_write]

theorem Memory.read_write_other (m : Memory) {k a : Nat} (v : Byte) (h : a ≠ k) :
    (m.write k v).read a = m.read a := by
  simp [Memory.read_write, h]

theorem Memory.wfFrom_mono {lo lo' : Nat} (h : lo' ≤ lo) {m : Memory} (hm : Memory.wfFrom lo m = true) :
    Memory.wfFrom lo' m = true := by
  cases m with
  | nil => rfl
  | cons c m =>
    obtain ⟨a, b⟩ := c
    simp only [Memory.wfFrom, Bool.and_eq_true, decide_eq_true_eq] at hm ⊢
    exact ⟨⟨⟨by omega, hm.1.1.2⟩, hm.1.2⟩, hm.2⟩

theorem Memory.wfFrom_erase (k : Nat) {m : Memory} : ∀ {lo : Nat}, Memory.wfFrom lo m = true →
    Memory.wfFrom lo (m.erase k) = true := by
  induction m with
  | nil => intro _ _; rfl
  | cons c m ih =>
    intro lo hm
    obtain ⟨a, b⟩ := c
    simp only [Memory.wfFrom, Bool.and_eq_true, decide_eq_true_eq] at hm
    have ht := ih hm.2
    simp only [Memory.erase, List.filter_cons] at ht ⊢
    split
    · simp only [Memory.wfFrom, Bool.and_eq_true, decide_eq_true_eq]
      exact ⟨hm.1, ht⟩
    · exact Memory.wfFrom_mono (by omega) ht

theorem Memory.wfFrom_insertCell {k : Nat} {v : Byte} (hk : k < 256) (hv : v ≠ Memory.fill) {m : Memory} :
    ∀ {lo : Nat}, lo ≤ k → (∀ c ∈ m, c.1 ≠ k) → Memory.wfFrom lo m = true →
      Memory.wfFrom lo (Memory.insertCell k v m) = true := by
  induction m with
  | nil => intro lo hlo _ _; simp [Memory.insertCell, Memory.wfFrom, hlo, hk, hv]
  | cons c m ih =>
    intro lo hlo hne hm
    obtain ⟨a, b⟩ := c
    simp only [Memory.wfFrom, Bool.and_eq_true, decide_eq_true_eq] at hm
    have hak : a ≠ k := hne (a, b) (by simp)
    simp only [Memory.insertCell]
    split
    · rename_i hlt
      simp only [Memory.wfFrom, Bool.and_eq_true, decide_eq_true_eq]
      exact ⟨⟨⟨hlo, hk⟩, hv⟩, ⟨⟨by omega, hm.1.1.2⟩, hm.1.2⟩, hm.2⟩
    · simp only [Memory.wfFrom, Bool.and_eq_true, decide_eq_true_eq]
      exact ⟨hm.1, ih (by omega) (fun c hc => hne c (by simp [hc])) hm.2⟩

/-- A write below address 256 keeps the canonical form. -/
theorem Memory.wf_write {m : Memory} (hm : m.wf = true) {k : Nat} (hk : k < 256) (v : Byte) :
    (m.write k v).wf = true := by
  unfold Memory.write
  split
  · exact Memory.wfFrom_erase k hm
  · rename_i hv
    exact Memory.wfFrom_insertCell hk hv (Nat.zero_le k) (by simp [Memory.erase]) (Memory.wfFrom_erase k hm)

/-- A bulk write keeps the canonical form. -/
theorem Memory.wf_writeBytes (bs : List Byte) : ∀ {m : Memory} {a : Nat}, m.wf = true →
    (m.writeBytes a bs).wf = true := by
  induction bs with
  | nil => intro m a hm; exact hm
  | cons b bs ih =>
    intro m a hm
    simp only [Memory.writeBytes]
    split
    · exact ih (Memory.wf_write hm (by assumption) b)
    · exact ih hm

/-- What a bulk write leaves: the bytes it writes below address 256, and every other cell as before. -/
theorem Memory.read_writeBytes (bs : List Byte) : ∀ (m : Memory) (a k : Nat),
    (m.writeBytes a bs).read k =
      if a ≤ k ∧ k < a + bs.length ∧ k < 256 then bs.getD (k - a) Memory.fill else m.read k := by
  induction bs with
  | nil => intro m a k; simp only [Memory.writeBytes, List.length_nil]; rw [if_neg (by omega)]
  | cons b bs ih =>
    intro m a k
    simp only [Memory.writeBytes, ih, List.length_cons]
    by_cases h : a + 1 ≤ k ∧ k < a + 1 + bs.length ∧ k < 256
    · rw [if_pos h, if_pos (by omega), show k - a = (k - (a + 1)) + 1 by omega]; rfl
    · rw [if_neg h]
      by_cases hk : k = a
      · subst hk
        by_cases h2 : k < 256
        · rw [if_pos h2, if_pos (by omega)]; simp
        · rw [if_neg h2, if_neg (by omega)]
      · have hr : (if a < 256 then m.write a b else m).read k = m.read k := by
          split
          · exact Memory.read_write_other m b hk
          · rfl
        rw [hr, if_neg (by omega)]

/-- The memory at reset has the canonical form. -/
theorem reset_mem_wf (cfg : Config) : (State.resetWith cfg).mem.wf = true := rfl

end Sys2Proof.Machine
end

