-- ==== Sys2Proof/Laws/Ops.lean ====
section
/-! SUPPORT. What each shared operation can do, said once: values, memory accesses, operand checks, stack, faults. -/

namespace Sys2Proof.Machine

/-! ### Values -/

theorem mod256_ofNat (n : Nat) : mod256 (n : Int) = BitVec.ofNat 8 n := by
  simp [mod256]

theorem mod256_toNat_add (a : Byte) (n : Nat) : mod256 ((a.toNat : Int) + n) = a + BitVec.ofNat 8 n := by
  rw [mod256, ← Int.natCast_add, BitVec.ofInt_natCast]
  apply BitVec.eq_of_toNat_eq
  simp

/-- `mod256` is the residue modulo 256 of 00_scope.md's notation table. -/
theorem mod256_toNat (a : Int) : ((mod256 a).toNat : Int) = a % 256 := by
  simp [mod256, BitVec.toNat_ofInt]
  omega

theorem mod256_toNat_sub_one (a : Byte) : mod256 ((a.toNat : Int) - 1) = a - 1#8 := by
  apply BitVec.eq_of_toNat_eq
  have h := mod256_toNat ((a.toNat : Int) - 1)
  rw [BitVec.toNat_sub]
  simp only [BitVec.toNat_ofNat]
  omega

theorem mod256_toNat_add_one (a : Byte) : mod256 ((a.toNat : Int) + 1) = a + 1#8 :=
  mod256_toNat_add a 1

@[simp] theorem pcAfter_eq (s : State) (n : Nat) : s.pcAfter n = s.pc + BitVec.ofNat 8 n :=
  mod256_toNat_add s.pc n

theorem decSp_eq (s : State) : s.decSp = s.setReg spIndex (s.sp - 1#8) := by
  rw [State.decSp, mod256_toNat_sub_one]

theorem incSp_eq (s : State) : s.incSp = s.setReg spIndex (s.sp + 1#8) := by
  rw [State.incSp, mod256_toNat_add_one]

/-! ### Operands -/

@[simp] theorem regNum_toNat (i : Fin 8) : (regNum i).toNat = i.val := by
  simp [regNum]; omega

@[simp] theorem regIndex_regNum (i : Fin 8) : regIndex (regNum i) = some i := by
  simp [regIndex]

/-- A legal register number is the number of a register. -/
theorem eq_regNum {r : RegNum} (h : r.toNat < 8) : r = regNum ⟨r.toNat, h⟩ := by
  apply BitVec.eq_of_toNat_eq; simp

theorem regIndex_eq_none {r : RegNum} (h : ¬ r.toNat < 8) : regIndex r = none := by
  simp [regIndex]; omega

/-- Either the register number is legal and `k` runs on its register, or InvalidRegisterIndex is raised (R89). -/
theorem withReg_cases (r : RegNum) (s : State) (k : Fin 8 → Result) :
    (∃ i, r = regNum i ∧ withReg r s k = k i) ∨ (8 ≤ r.toNat ∧ withReg r s k = raise .invalidRegisterIndex s) := by
  by_cases h : r.toNat < 8
  · left; refine ⟨⟨r.toNat, h⟩, eq_regNum h, ?_⟩; simp [withReg, regIndex, h]
  · right; exact ⟨by omega, by simp [withReg, regIndex_eq_none h]⟩

@[simp] theorem withReg_regNum (i : Fin 8) (s : State) (k : Fin 8 → Result) : withReg (regNum i) s k = k i := by
  simp [withReg]

@[simp] theorem withRegs_regNum (i j : Fin 8) (s : State) (k : Fin 8 → Fin 8 → Result) :
    withRegs (regNum i) (regNum j) s k = k i j := by
  simp [withRegs]

/-- A register number above 7 raises InvalidRegisterIndex, whatever was to follow (R89). -/
theorem withReg_illegal {r : RegNum} (h : ¬ r.toNat < 8) (s : State) (k : Fin 8 → Result) :
    withReg r s k = raise .invalidRegisterIndex s := by
  simp [withReg, regIndex_eq_none h]

/-- One register number above 7 among two raises InvalidRegisterIndex (R89). -/
theorem withRegs_illegal {ra rb : RegNum} (h : ¬ ra.toNat < 8 ∨ ¬ rb.toNat < 8) (s : State)
    (k : Fin 8 → Fin 8 → Result) : withRegs ra rb s k = raise .invalidRegisterIndex s := by
  unfold withRegs
  by_cases ha : ra.toNat < 8
  · rw [eq_regNum ha, withReg_regNum, withReg_illegal (h.resolve_left (not_not.2 ha))]
  · rw [withReg_illegal ha]

/-- Either both register numbers are legal, or InvalidRegisterIndex is raised (R89). -/
theorem withRegs_cases (ra rb : RegNum) (s : State) (k : Fin 8 → Fin 8 → Result) :
    (∃ i j, ra = regNum i ∧ rb = regNum j ∧ withRegs ra rb s k = k i j) ∨
      ((8 ≤ ra.toNat ∨ 8 ≤ rb.toNat) ∧ withRegs ra rb s k = raise .invalidRegisterIndex s) := by
  rcases withReg_cases ra s (fun i => withReg rb s fun j => k i j) with ⟨i, hi, h⟩ | ⟨hi, h⟩
  · rcases withReg_cases rb s (k i) with ⟨j, hj, h'⟩ | ⟨hj, h'⟩
    · exact .inl ⟨i, j, hi, hj, h.trans h'⟩
    · exact .inr ⟨.inr hj, h.trans h'⟩
  · exact .inr ⟨.inl hi, h⟩

/-! ### Memory accesses -/

/-- A read in bounds gives the cell (R51). -/
@[simp] theorem memRead_toNat (s : State) (v : Byte) : s.memRead v.toNat = .ok (s.mem.read v.toNat) := by
  rw [State.memRead, if_pos (by omega), Int.toNat_natCast]

theorem memRead_of_lt (s : State) {n : Nat} (h : n < 256) : s.memRead n = .ok (s.mem.read n) := by
  rw [State.memRead, if_pos (by omega), Int.toNat_natCast]

theorem memRead_of_ge (s : State) {n : Nat} (h : 256 ≤ n) : s.memRead n = .error .addressOutOfBounds := by
  rw [State.memRead, if_neg (by omega)]

/-! ### The stack -/

theorem sp_eq (s : State) : s.sp = s.x[7] := rfl

/-- At SP = 0 a push fails (R145). -/
theorem push_full (s : State) (v : Byte) (h : s.x[7] = 0#8) : s.push v = .error .addressOutOfBounds := by
  have e : s.pushAddr = -1 := by rw [State.pushAddr, sp_eq, h]; rfl
  rw [State.push, State.memWrite, e]
  exact if_neg (by omega)

/-- At any other SP a push decrements SP, writes the one cell there, and changes nothing else (R140). -/
theorem push_ok (s : State) (v : Byte) (h : s.x[7] ≠ 0#8) :
    s.push v = .ok { s with x := s.x.set 7 (s.x[7] - 1#8), mem := s.mem.write (s.x[7].toNat - 1) v } := by
  have h1 : s.x[7].toNat ≠ 0 := fun e => h (BitVec.eq_of_toNat_eq (by simpa using e))
  have e : s.pushAddr.toNat = s.x[7].toNat - 1 := by rw [State.pushAddr, sp_eq]; omega
  rw [State.push, State.memWrite, if_pos (by rw [State.pushAddr, sp_eq]; omega), e, decSp_eq]
  rfl

/-- At or above `STACK_EMPTY` a pop fails (R145). -/
theorem stackTop_empty (s : State) (h : s.cfg.stackEmpty.toNat ≤ s.x[7].toNat) :
    s.stackTop = .error .stackUnderflow := if_pos h

/-- Below `STACK_EMPTY` a pop reads the cell at SP (R140). -/
theorem stackTop_ok (s : State) (h : s.x[7].toNat < s.cfg.stackEmpty.toNat) :
    s.stackTop = .ok (s.mem.read s.x[7].toNat) := by
  rw [State.stackTop, if_neg (by rw [sp_eq]; omega), memRead_toNat]
  rfl

/-- A register read at the decremented SP. -/
theorem decSp_reg (s : State) (k : Fin 8) : s.decSp.reg k = if k = 7 then s.x[7] - 1#8 else s.x[k] := by
  rw [decSp_eq, setReg_reg]
  by_cases h : k = 7
  · subst h; rfl
  · rw [if_neg (fun e => h e.symm), if_neg h]; rfl

/-! ### Faults -/

@[simp] theorem orRaise_ok {α : Type} (v : α) (s : State) (k : α → Result) : orRaise (.ok v) s k = k v := rfl

@[simp] theorem orRaise_error {α : Type} (c : FaultCause) (s : State) (k : α → Result) :
    orRaise (.error c) s k = raise c s := rfl

/-- Raising always answers a next state: the old one with `fault` and `run` changed (R183). -/
@[simp] theorem raise_eq_next_iff (c : FaultCause) (s t : State) : raise c s = .next t ↔ s.raise c = t := by
  simp [raise]

/-- FL after a comparison is legal and is not None (R125, R35). -/
theorem compareFlags_cases (a b : Byte) :
    (a.toNat = b.toNat ∧ compareFlags a b = flEqual) ∨ (b.toNat < a.toNat ∧ compareFlags a b = flGreater) ∨
      (a.toNat < b.toNat ∧ compareFlags a b = flLess) := by
  unfold compareFlags
  split
  · left; simp_all
  · split
    · right; left; simp_all
    · right; right; exact ⟨by omega, rfl⟩

end Sys2Proof.Machine
end

