-- ==== Sys2Proof/Laws/Decode.lean ====
section
/-! SUPPORT. What each decoding format accepts, said once. -/

namespace Sys2Proof.Machine

/-- Format OP1 accepts exactly one legal register number (R82, R89). -/
theorem decodeReg_ok {mk : RegNum → Instr} {bs rest : List Byte} {i : Instr}
    (h : decodeReg mk bs = .ok (i, rest)) : ∃ k, i = mk (regNum k) ∧ bs = regNum k :: rest := by
  unfold decodeReg at h
  split at h
  · split at h
    · rename_i hl; cases h; rw [eq_regNum hl]; exact ⟨_, rfl, rfl⟩
    · cases h
  · cases h

/-- Format OP2 with two registers accepts exactly two legal register numbers (R82, R89). -/
theorem decodeRegReg_ok {mk : RegNum → RegNum → Instr} {bs rest : List Byte} {i : Instr}
    (h : decodeRegReg mk bs = .ok (i, rest)) :
    ∃ k j, i = mk (regNum k) (regNum j) ∧ bs = regNum k :: regNum j :: rest := by
  unfold decodeRegReg at h
  split at h
  · split at h
    · split at h
      · rename_i ha hb; cases h; rw [eq_regNum ha, eq_regNum hb]; exact ⟨_, _, rfl, rfl⟩
      · cases h
    · cases h
  · cases h

/-- Format OP2 with an immediate accepts exactly a legal register number and any byte (R82, R89, R90). -/
theorem decodeRegImm_ok {mk : RegNum → Byte → Instr} {bs rest : List Byte} {i : Instr}
    (h : decodeRegImm mk bs = .ok (i, rest)) : ∃ k v, i = mk (regNum k) v ∧ bs = regNum k :: v :: rest := by
  unfold decodeRegImm at h
  split at h
  · split at h
    · rename_i hl; cases h; rw [eq_regNum hl]; exact ⟨_, _, rfl, rfl⟩
    · cases h
  · cases h

@[simp] theorem legal_regNum (k : Fin 8) : RegNum.legal (regNum k) = true := by simp [RegNum.legal]

end Sys2Proof.Machine
end

