-- ==== Sys2Proof/Laws/Step.lean ====
section
/-! SUPPORT. What the fetch sees and what a step can do, said once. -/

namespace Sys2Proof.Machine

/-- The fetch window is the byte at `pc` and as many of the next two as lie below address 256 (R53). -/
theorem fetchWindow_eq (s : State) :
    s.fetchWindow = s.mem.read s.pc.toNat ::
      (if s.pc.toNat + 1 < 256 then s.mem.read (s.pc.toNat + 1) ::
        (if s.pc.toNat + 2 < 256 then [s.mem.read (s.pc.toNat + 2)] else []) else []) := by
  have e1 : (s.pc.toNat : Int) + 1 = ((s.pc.toNat + 1 : Nat) : Int) := by omega
  have e2 : ((s.pc.toNat + 1 : Nat) : Int) + 1 = ((s.pc.toNat + 2 : Nat) : Int) := by omega
  simp only [State.fetchWindow, State.readFrom, memRead_toNat, e1]
  by_cases h1 : s.pc.toNat + 1 < 256
  · rw [memRead_of_lt s h1]
    simp only [h1, if_true, e2]
    by_cases h2 : s.pc.toNat + 2 < 256
    · rw [memRead_of_lt s h2]; simp only [h2, if_true]
    · rw [memRead_of_ge s (by omega)]; simp only [h2, if_false]
  · rw [memRead_of_ge s (by omega)]; simp only [h1, if_false]

/-- Byte `n` of the fetch window is the memory byte at `pc + n` (R95, R66). -/
theorem fetchWindow_getElem (s : State) {n : Nat} (hn : n < 3) (h : s.pc.toNat + n < 256) :
    s.fetchWindow[n]? = some (s.mem.read (s.pc.toNat + n)) := by
  rw [fetchWindow_eq]
  match n, hn with
  | 0, _ => rfl
  | 1, _ => rw [if_pos h]; rfl
  | 2, _ => rw [if_pos (by omega), if_pos h]; rfl

/-- A step that answers a next state began Running, and either raised what the decoder rejected the bytes for,
or is `exec` of the decoded instruction (R94). -/
theorem step_cases {s t : State} (h : step s = .next t) :
    s.run = .running ∧
      ((∃ e, decode s.fetchWindow = .error e ∧ t = s.raise (decodeFault e)) ∨
        ∃ i rest, decode s.fetchWindow = .ok (i, rest) ∧ exec i s = .next t) := by
  unfold step at h
  split at h
  · cases h
  · refine ⟨‹_›, ?_⟩
    split at h
    · exact .inl ⟨_, ‹_›, by simpa [raise, eq_comm] using h⟩
    · exact .inr ⟨_, _, ‹_›, h⟩

end Sys2Proof.Machine
end

