-- ==== Sys2Proof/Laws/HostPort.lean ====
section
/-! SUPPORT. What each host action can do, said once. -/

namespace Sys2Proof.Machine

@[simp] theorem resetSignal_eq (s : State) : s.resetSignal = State.resetWith s.cfg := rfl

@[simp] theorem resetWith_cfg (cfg : Config) : (State.resetWith cfg).cfg = cfg := rfl

theorem atReset_iff (s : State) : s.atReset = true ↔ s = State.resetWith s.cfg := by simp [State.atReset]

@[simp] theorem resetWith_atReset (cfg : Config) : (State.resetWith cfg).atReset = true := by simp [State.atReset]

/-- A launch loads an image of at most 256 bytes over a reset machine and refuses a longer one (R224). -/
theorem launch_eq (cfg : Config) (image : List Byte) :
    launch cfg image =
      if image.length ≤ 256 then .next ((State.resetWith cfg).load image) else .refused .imageTooLong := by
  rw [launch, State.loadImage, if_pos (resetWith_atReset cfg)]

/-- A load answers a next state only at reset, and then changes memory alone (R224, R227). -/
theorem loadImage_next {image : List Byte} {s t : State} (h : s.loadImage image = .next t) :
    s = State.resetWith s.cfg ∧ image.length ≤ 256 ∧ t = { s with mem := s.mem.writeBytes 0 image } := by
  unfold State.loadImage at h
  split at h
  · split at h
    · cases h; exact ⟨(atReset_iff s).1 ‹_›, ‹_›, rfl⟩
    · cases h
  · cases h

/-- A host action that answers a next state is a reset, a load over a reset machine, or a step (R227). -/
theorem hostAct_cases {a : HostAction} {s t : State} (h : hostAct a s = .next t) :
    (a = .reset ∧ t = State.resetWith s.cfg) ∨
      (∃ image, a = .load image ∧ s = State.resetWith s.cfg ∧ t = { s with mem := s.mem.writeBytes 0 image }) ∨
      (a = .step ∧ step s = .next t) := by
  cases a with
  | reset => cases h; exact .inl ⟨rfl, rfl⟩
  | load image =>
    obtain ⟨h1, _, h3⟩ := loadImage_next h
    exact .inr (.inl ⟨image, rfl, h1, h3⟩)
  | step => exact .inr (.inr ⟨rfl, h⟩)

end Sys2Proof.Machine
end

