-- ==== Sys2Proof/Laws/PerInstr.lean ====
section
/-! SUPPORT. Statements for all instructions, one lemma per constructor. -/

/-- The opcode byte announces exactly the operand bytes the encoder emits: bits 7:6 are their number (30_encoding.md R81). -/
def Sys2Proof.Laws.EncodeLength.Statement (i : Sys2Proof.Instr) : Prop :=
  (Sys2Proof.encode i).length = 1 + i.opcode.toNat / 64 ∧ i.opcode.toNat / 64 ≤ 2

namespace Sys2Proof.Laws.EncodeLength

theorem halt : Statement .halt := by
  simp [Statement, encode, Instr.opcode, Instr.operandBytes]
theorem loadImmediate (ra : RegNum) (imm : Byte) : Statement (.loadImmediate ra imm) := by
  simp [Statement, encode, Instr.opcode, Instr.operandBytes]
theorem print (ra : RegNum) : Statement (.print ra) := by
  simp [Statement, encode, Instr.opcode, Instr.operandBytes]
theorem mul (ra rb : RegNum) : Statement (.mul ra rb) := by
  simp [Statement, encode, Instr.opcode, Instr.operandBytes]
theorem add (ra rb : RegNum) : Statement (.add ra rb) := by
  simp [Statement, encode, Instr.opcode, Instr.operandBytes]
theorem sub (ra rb : RegNum) : Statement (.sub ra rb) := by
  simp [Statement, encode, Instr.opcode, Instr.operandBytes]
theorem div (ra rb : RegNum) : Statement (.div ra rb) := by
  simp [Statement, encode, Instr.opcode, Instr.operandBytes]
theorem pop (ra : RegNum) : Statement (.pop ra) := by
  simp [Statement, encode, Instr.opcode, Instr.operandBytes]
theorem push (ra : RegNum) : Statement (.push ra) := by
  simp [Statement, encode, Instr.opcode, Instr.operandBytes]
theorem call (ra : RegNum) : Statement (.call ra) := by
  simp [Statement, encode, Instr.opcode, Instr.operandBytes]
theorem ret : Statement .ret := by
  simp [Statement, encode, Instr.opcode, Instr.operandBytes]
theorem jump (ra : RegNum) : Statement (.jump ra) := by
  simp [Statement, encode, Instr.opcode, Instr.operandBytes]
theorem compare (ra rb : RegNum) : Statement (.compare ra rb) := by
  simp [Statement, encode, Instr.opcode, Instr.operandBytes]
theorem jumpIfEqual (ra : RegNum) : Statement (.jumpIfEqual ra) := by
  simp [Statement, encode, Instr.opcode, Instr.operandBytes]
theorem jumpIfNotEqual (ra : RegNum) : Statement (.jumpIfNotEqual ra) := by
  simp [Statement, encode, Instr.opcode, Instr.operandBytes]

end Sys2Proof.Laws.EncodeLength
end

