-- ==== Sys2Proof/Tests/Slice0.lean ====
section
/-! SUPPORT. The model's own tests: expected results from spec/95_test_vectors.md and the rules, one step each;
and, for every statement with hypotheses, a state and operands that meet them together. -/

namespace Sys2Proof.Tests

open Sys2Proof Sys2Proof.Machine

/-- A Running state with `code` at `pc` and the given registers, otherwise as at reset. -/
def at_ (pc : Byte) (code : List Byte) (x : Vector Byte 8) : State :=
  { State.reset with x := x, pc := pc, mem := Memory.writeBytes [] pc.toNat code }

/-- What one step leaves of a state, seen through `f`. -/
def after {α : Type} (s : State) (f : State → α) : Option α :=
  match step s with
  | .next t => some (f t)
  | _ => none

/-- How a step ended: the fault recorded, the run state, PC. -/
def ending (t : State) : Option FaultCause × RunState × Byte := (t.fault, t.run, t.pc)

/-- Registers for most tests: R1 = 2, R2 = 0xFF, R3 = 0x40, SP = 0xF4, the others 0. -/
def regs : Vector Byte 8 := #v[0, 2, 0xFF, 0x40, 0, 0, 0, 0xF4]

/-! ### WellFormed: a term that fails each check -/

theorem test_wf_ok : (Instr.add 7#8 0#8).wellFormed = true := by decide
theorem test_wf_no_operands : Instr.halt.wellFormed = true ∧ Instr.ret.wellFormed = true := by decide
theorem test_wf_immediate_unchecked : (Instr.loadImmediate 7#8 0xFF#8).wellFormed = true := by decide
theorem test_wf_first_register : (Instr.add 8#8 0#8).wellFormed = false ∧ (Instr.sub 8#8 0#8).wellFormed = false ∧
    (Instr.mul 8#8 0#8).wellFormed = false ∧ (Instr.div 8#8 0#8).wellFormed = false ∧
    (Instr.compare 8#8 0#8).wellFormed = false ∧ (Instr.loadImmediate 8#8 0#8).wellFormed = false := by decide
theorem test_wf_second_register : (Instr.add 0#8 8#8).wellFormed = false ∧ (Instr.sub 0#8 8#8).wellFormed = false ∧
    (Instr.mul 0#8 8#8).wellFormed = false ∧ (Instr.div 0#8 0xFF#8).wellFormed = false ∧
    (Instr.compare 0#8 8#8).wellFormed = false := by decide
theorem test_wf_only_register : (Instr.print 8#8).wellFormed = false ∧ (Instr.push 8#8).wellFormed = false ∧
    (Instr.pop 8#8).wellFormed = false ∧ (Instr.call 8#8).wellFormed = false ∧ (Instr.jump 0xFF#8).wellFormed = false ∧
    (Instr.jumpIfEqual 8#8).wellFormed = false ∧ (Instr.jumpIfNotEqual 8#8).wellFormed = false := by decide

/-! ### Decode: words written out from 30_encoding.md R84 -/

theorem test_decode_halt : decode [0b00000001#8] = .ok (.halt, []) := rfl
theorem test_decode_ldi : decode [0b10000010#8, 3#8, 9#8] = .ok (.loadImmediate 3#8 9#8, []) := rfl
theorem test_decode_prn : decode [0b01000111#8, 3#8] = .ok (.print 3#8, []) := rfl
theorem test_decode_mul : decode [0b10100010#8, 1#8, 2#8] = .ok (.mul 1#8 2#8, []) := rfl
theorem test_decode_add : decode [0b10100000#8, 1#8, 2#8] = .ok (.add 1#8 2#8, []) := rfl
theorem test_decode_sub : decode [0b10100001#8, 1#8, 2#8] = .ok (.sub 1#8 2#8, []) := rfl
theorem test_decode_div : decode [0b10100011#8, 1#8, 2#8] = .ok (.div 1#8 2#8, []) := rfl
theorem test_decode_pop : decode [0b01000110#8, 7#8] = .ok (.pop 7#8, []) := rfl
theorem test_decode_push : decode [0b01000101#8, 7#8] = .ok (.push 7#8, []) := rfl
theorem test_decode_call : decode [0b01010000#8, 5#8] = .ok (.call 5#8, []) := rfl
theorem test_decode_ret : decode [0b00010001#8, 5#8] = .ok (.ret, [5#8]) := rfl
theorem test_decode_jmp : decode [0b01010100#8, 5#8] = .ok (.jump 5#8, []) := rfl
theorem test_decode_cmp : decode [0b10100111#8, 1#8, 2#8] = .ok (.compare 1#8 2#8, []) := rfl
theorem test_decode_jeq : decode [0b01010101#8, 5#8] = .ok (.jumpIfEqual 5#8, []) := rfl
theorem test_decode_jne : decode [0b01010110#8, 5#8] = .ok (.jumpIfNotEqual 5#8, []) := rfl

/-- Table U: gaps in the opcode map are no instruction. -/
theorem test_decode_gaps : ∀ op ∈ [0x00#8, 0x02#8, 0x10#8, 0x12#8, 0x44#8, 0x48#8, 0x51#8, 0x52#8, 0x53#8, 0x57#8,
    0x80#8, 0x81#8, 0x83#8, 0xA4#8, 0xA5#8, 0xA6#8, 0xA8#8, 0xC0#8, 0xC5#8, 0xFF#8],
    decode [op, 0#8, 0#8] = .error (.unrecognized op) := by decide

/-- Table F: the operand fetch precedes the register check, which takes `opa` first. -/
theorem test_decode_order : decode [0xA0#8, 9#8] = .error .missingByte ∧
    decode [0xA3#8, 9#8, 8#8] = .error (.invalidRegister 9#8) := by decide

/-- The host's numbering: the first byte is bits 7..0, the second bits 15..8, the third bits 23..16. -/
theorem test_decodeTableWord : decodeTableWord 24 0x0201A1 = some (.sub 1#8 2#8) ∧
    decodeTableWord 8 0xFFFFA1 = some (.sub 0#8 0#8) ∧ decodeTableWord 8 0x00 = none := by decide

/-- A placed word is what the next step from reset runs. -/
theorem test_withFetchWord : after (State.reset.withFetchWord 24 0x080082) (fun t => (t.x[0], t.pc)) =
    some (8#8, 3#8) := by decide

/-! ### Instructions, against 95_test_vectors.md -/

/-- Table G. -/
theorem test_halt : after (at_ 0xFF#8 [0x01#8] regs) ending = some (none, .halted, 0x00#8) := by decide
/-- Table G: the immediate is never a register number; PC wraps. -/
theorem test_ldi : after (at_ 0xFD#8 [0x82#8, 1#8, 9#8] regs) (fun t => (t.x[1], t.pc)) = some (9#8, 0x00#8) := by decide
/-- Table G: SP is a destination like any other. -/
theorem test_ldi_sp : after (at_ 0x10#8 [0x82#8, 7#8, 0x20#8] regs) (fun t => (t.x[7], t.pc)) =
    some (0x20#8, 0x13#8) := by decide
/-- Table G: the value is unsigned and appended last. -/
theorem test_prn : after { at_ 0x10#8 [0x47#8, 2#8] regs with out := [1#8] } (fun t => (t.out, t.pc)) =
    some ([1#8, 255#8], 0x12#8) := by decide
/-- Table A: 200 + 100 = 44, FL untouched. -/
theorem test_add : after (at_ 0x10#8 [0xA0#8, 0#8, 1#8] #v[0xC8, 0x64, 0, 0, 0, 0, 0, 0xF4])
    (fun t => (t.x[0], t.x[1], t.fl, t.pc)) = some (0x2C#8, 0x64#8, 0#8, 0x13#8) := by decide
/-- Table B: 3 - 5 = 254. -/
theorem test_sub : after (at_ 0x10#8 [0xA1#8, 0#8, 1#8] #v[3, 5, 0, 0, 0, 0, 0, 0xF4])
    (fun t => (t.x[0], t.x[1])) = some (0xFE#8, 5#8) := by decide
/-- Table C: 255 * 255 = 1. -/
theorem test_mul : after (at_ 0x10#8 [0xA2#8, 0#8, 1#8] #v[0xFF, 0xFF, 0, 0, 0, 0, 0, 0xF4])
    (fun t => t.x[0]) = some 1#8 := by decide
/-- Table D: 254 div 2 = 127, unsigned. -/
theorem test_div : after (at_ 0x10#8 [0xA3#8, 0#8, 1#8] #v[0xFE, 2, 0, 0, 0, 0, 0, 0xF4])
    (fun t => t.x[0]) = some 0x7F#8 := by decide
/-- Table D: the fault leaves PC and regA. -/
theorem test_div_by_zero : after (at_ 0x10#8 [0xA3#8, 1#8, 0#8] regs) (fun t => (t.x[1], ending t)) =
    some (2#8, some .divisionByZero, .halted, 0x10#8) := by decide
/-- Table E: 0x80 against 0x7F is Greater. -/
theorem test_cmp_greater : after (at_ 0x10#8 [0xA7#8, 0#8, 1#8] #v[0x80, 0x7F, 0, 0, 0, 0, 0, 0xF4])
    (fun t => (t.fl, t.x[0], t.pc)) = some (0x02#8, 0x80#8, 0x13#8) := by decide
/-- Table E: 0 against 0xFF is Less, whatever FL held. -/
theorem test_cmp_less : after { at_ 0x10#8 [0xA7#8, 0#8, 2#8] regs with fl := 0x01#8 } State.fl = some 0x04#8 := by decide
/-- K16: a PUSH that overwrites its own operand byte completes. -/
theorem test_push_over_itself : after (at_ 0x10#8 [0x45#8, 1#8] #v[0, 5, 0, 0, 0, 0, 0, 0x12])
    (fun t => (t.x[7], t.mem.read 0x11, t.pc)) = some (0x11#8, 5#8, 0x12#8) := by decide
/-- K11: PUSH R7 pushes the decremented SP. -/
theorem test_push_sp : after (at_ 0x10#8 [0x45#8, 7#8] regs) (fun t => (t.x[7], t.mem.read 0xF3)) =
    some (0xF3#8, 0xF3#8) := by decide
/-- K12: POP R7 leaves the popped byte plus 1. -/
theorem test_pop_sp : after (at_ 0xF1#8 [0x46#8, 7#8, 0x20#8] #v[0, 0, 0, 0, 0, 0, 0, 0xF3]) (fun t => t.x[7]) =
    some 0x21#8 := by decide
/-- K7: with `STACK_EMPTY` 0xFF a pop at 0xF4 succeeds. -/
theorem test_pop_other_sentinel :
    after { at_ 0xF2#8 [0x46#8, 0#8, 0x77#8] regs with cfg := ⟨0xFF#8⟩ } (fun t => (t.x[0], t.x[7])) =
      some (0x77#8, 0xF5#8) := by decide
/-- T4: CALL at 254 pushes 0. -/
theorem test_call_wraps : after (at_ 0xFE#8 [0x50#8, 2#8] #v[0, 0, 0x10, 0, 0, 0, 0, 0xF4])
    (fun t => (t.x[7], t.mem.read 0xF3, t.pc)) = some (0xF3#8, 0#8, 0x10#8) := by decide
/-- T8: CALL R7 jumps to the decremented SP. -/
theorem test_call_sp : after (at_ 0x10#8 [0x50#8, 7#8] regs) (fun t => (t.mem.read 0xF3, t.pc)) =
    some (0x12#8, 0xF3#8) := by decide
/-- T10: any byte on top is the new PC. -/
theorem test_ret : after (at_ 0x4F#8 [0x11#8, 0xFF#8] #v[0, 0, 0, 0, 0, 0, 0, 0x50]) (fun t => (t.pc, t.x[7])) =
    some (0xFF#8, 0x51#8) := by decide
/-- T13. -/
theorem test_jmp_sp : after (at_ 0x10#8 [0x54#8, 7#8] regs) (fun t => (t.pc, t.x[7])) = some (0xF4#8, 0xF4#8) := by decide
/-- Table J: taken with Equal; falls through, wrapping, with Greater. -/
theorem test_jeq : after { at_ 0x10#8 [0x55#8, 3#8] regs with fl := 0x01#8 } State.pc = some 0x40#8 ∧
    after { at_ 0xFE#8 [0x55#8, 3#8] regs with fl := 0x02#8 } State.pc = some 0x00#8 := by decide
/-- Table J: taken before any COMPARE; falls through with Equal. -/
theorem test_jne : after (at_ 0x10#8 [0x56#8, 3#8] regs) State.pc = some 0x40#8 ∧
    after { at_ 0x10#8 [0x56#8, 3#8] regs with fl := 0x01#8 } State.pc = some 0x12#8 := by decide

/-! ### Faults, against 95_test_vectors.md -/

/-- Table J: the register number is checked although the jump would not be taken. -/
theorem test_jeq_register_checked : after (at_ 0x10#8 [0x55#8, 9#8] regs) ending =
    some (some .invalidRegisterIndex, .halted, 0x10#8) := by decide
/-- Table U: no operand is fetched for an unknown opcode at 255; 60_exceptions.md R185. -/
theorem test_unknown_at_top : after (at_ 0xFF#8 [0xC5#8] regs) ending =
    some (some .unrecognizedInstruction, .halted, 0xFF#8) := by decide
/-- K8, K14, K5: push at SP = 0, PUSH at 255, POP at reset's SP. -/
theorem test_stack_faults :
    after (at_ 0x10#8 [0x45#8, 0#8] #v[0, 0, 0, 0, 0, 0, 0, 0]) (fun t => (t.x[7], ending t)) =
      some (0#8, some .addressOutOfBounds, .halted, 0x10#8) ∧
    after (at_ 0xFF#8 [0x45#8] regs) ending = some (some .addressOutOfBounds, .halted, 0xFF#8) ∧
    after (at_ 0x10#8 [0x46#8, 0#8] regs) ending = some (some .stackUnderflow, .halted, 0x10#8) := by decide
/-- Table G: a Halted machine takes no step. -/
theorem test_halted_no_step : after { State.reset with run := .halted } ending = none := by decide
/-- M1: the empty image faults at address 0. -/
theorem test_empty_image : after State.reset ending = some (some .unrecognizedInstruction, .halted, 0#8) := by decide

/-! ### The host, against 95_test_vectors.md and 70_reset_and_hazards.md R227 -/

/-- M6: reset after a faulted run, whatever else the run left. -/
theorem test_reset_after_fault :
    hostAct .reset { (at_ 0x10#8 [0xA3#8, 1#8, 0#8] regs).raise .divisionByZero with out := [9#8], fl := 0x04#8 } =
      .next State.reset := rfl
/-- A reset lands in a Running state too, and keeps the configuration. -/
theorem test_reset_while_running :
    hostAct .reset { at_ 0x10#8 [0x54#8, 1#8] regs with cfg := ⟨0xFF#8⟩ } =
      .next (State.resetWith ⟨0xFF#8⟩) := rfl
/-- R227: after reset and before the first step only. -/
theorem test_load_after_start : hostAct (.load [0x01#8]) (State.reset.raise .unrecognizedInstruction) =
    .refused .loadAfterStart := by
  rw [hostAct, State.loadImage, if_neg (by decide)]
/-- R227, R228: before the end the output and the two signals only. -/
theorem test_host_view :
    ({ State.reset with out := [7#8] } : State).hostView = ⟨[7#8], false, 0#3⟩ ∧ State.reset.hostRead = none ∧
    (State.reset.raise .stackUnderflow).hostView = ⟨[], true, 4#3⟩ := by decide

/-! ### Witnesses: the hypotheses of each statement can be met together -/

theorem witness_DecodeOfEncodeIsTheInstruction : (Instr.loadImmediate 7#8 0xFF#8).wellFormed = true ∧
    (Instr.compare 7#8 0#8).wellFormed = true ∧ Instr.ret.wellFormed = true := by decide
theorem witness_DecodedBytesAreItsEncoding : decode [0xA2#8, 7#8, 0#8, 1#8] = .ok (.mul 7#8 0#8, [1#8]) := rfl
theorem witness_OpcodeTopBitsGiveLength : decode [0x11#8] = .ok (.ret, []) ∧
    decode [0x50#8, 7#8] = .ok (.call 7#8, []) ∧ decode [0x82#8, 0#8, 0xFF#8] = .ok (.loadImmediate 0#8 0xFF#8, []) :=
  ⟨rfl, rfl, rfl⟩
theorem witness_UnlistedOpcodeIsUnrecognized :
    (State.reset.run = .running ∧ State.reset.mem.read State.reset.pc.toNat ∉ opcodes) ∧
    0xC0 ≤ (0xC0#8 : Byte).toNat := by decide
theorem witness_StepRunsDecodedInstruction : (at_ 0x10#8 [0x47#8, 3#8] regs).run = .running ∧
    decode (at_ 0x10#8 [0x47#8, 3#8] regs).fetchWindow = .ok (.print 3#8, [0#8]) := by
  rw [show (at_ 0x10#8 [0x47#8, 3#8] regs).fetchWindow = [0x47#8, 3#8, 0#8] by decide]
  exact ⟨rfl, rfl⟩
/-- The last cell a three-byte instruction can end in, and a one-byte instruction in the last cell. -/
theorem witness_InstructionInMemoryRuns :
    ((at_ 0xFD#8 [0xA0#8, 7#8, 0#8] regs).run = .running ∧ (Instr.add 7#8 0#8).wellFormed = true ∧
      ∀ k : Fin 3, 0xFD + k.val < 256 ∧
        (at_ 0xFD#8 [0xA0#8, 7#8, 0#8] regs).mem.read (0xFD + k.val) = (encode (.add 7#8 0#8))[k]) ∧
    ((at_ 0xFF#8 [0x01#8] regs).run = .running ∧ Instr.halt.wellFormed = true ∧
      ∀ k : Fin 1, 0xFF + k.val < 256 ∧
        (at_ 0xFF#8 [0x01#8] regs).mem.read (0xFF + k.val) = (encode .halt)[k]) := by decide
theorem witness_RunningMachineAlwaysSteps : State.reset.run = .running ∧ State.reset.halt.run = .halted := by decide
/-- Each clause of the fault matrix, at the boundary of its range, and a state without a fault beside it. -/
theorem witness_FaultMatrixIsExact :
    faultMatrix State.reset = some .unrecognizedInstruction ∧
    faultMatrix (at_ 0xFF#8 [0x47#8] regs) = some .addressOutOfBounds ∧
    faultMatrix (at_ 0xFE#8 [0x47#8, 7#8] regs) = none ∧
    faultMatrix (at_ 0xFE#8 [0x82#8, 7#8] regs) = some .addressOutOfBounds ∧
    faultMatrix (at_ 0xFD#8 [0x82#8, 7#8, 0xFF#8] regs) = none ∧
    faultMatrix (at_ 0x10#8 [0x47#8, 8#8] regs) = some .invalidRegisterIndex ∧
    faultMatrix (at_ 0x10#8 [0xA7#8, 7#8, 8#8] regs) = some .invalidRegisterIndex ∧
    faultMatrix (at_ 0x10#8 [0xA3#8, 7#8, 0#8] regs) = some .divisionByZero ∧
    faultMatrix (at_ 0x10#8 [0xA3#8, 0#8, 7#8] regs) = none ∧
    faultMatrix (at_ 0x10#8 [0x50#8, 0#8] #v[0, 0, 0, 0, 0, 0, 0, 0]) = some .addressOutOfBounds ∧
    faultMatrix (at_ 0x10#8 [0x45#8, 0#8] #v[0, 0, 0, 0, 0, 0, 0, 1]) = none ∧
    faultMatrix (at_ 0x10#8 [0x11#8] regs) = some .stackUnderflow ∧
    faultMatrix (at_ 0x10#8 [0x46#8, 0#8] #v[0, 0, 0, 0, 0, 0, 0, 0xF3]) = none ∧
    faultMatrix (at_ 0xFF#8 [0x01#8] regs) = none := by decide
theorem witness_TakingAFaultOnlyHalts : ∃ t, State.reset.run = .running ∧ State.reset.fault = none ∧
    step State.reset = .next t ∧ t.fault = some .unrecognizedInstruction :=
  ⟨State.reset.raise .unrecognizedInstruction, rfl, rfl, rfl, rfl⟩
theorem witness_FaultIsRaisedOnceAndStays :
    (exec .halt (State.reset.raise .divisionByZero) =
        .next ((State.reset.raise .divisionByZero).advance 1).halt ∧
      (State.reset.raise .divisionByZero).fault = some .divisionByZero) ∧
    State.reset.Inv ∧ RunsTo State.reset (State.reset.raise .unrecognizedInstruction) ∧
    (State.reset.raise .unrecognizedInstruction).fault = some .unrecognizedInstruction ∧
    RunsTo (State.reset.raise .unrecognizedInstruction) (State.reset.raise .unrecognizedInstruction) :=
  ⟨⟨rfl, rfl⟩, ⟨by decide, by decide, by decide, by decide⟩, .step .refl rfl, rfl, .refl⟩
theorem witness_OnlyPrintEmitsOutput :
    exec (.print (regNum 7)) State.reset = .next ((State.reset.output 0xF4#8).advance 2) ∧
    exec .halt State.reset = .next (State.reset.advance 1).halt := ⟨rfl, rfl⟩
/-- The COMPARE clause: registers 0 and 7 of one state against registers 6 and 7 of another. -/
theorem witness_AluContract : (at_ 0#8 [] regs).x[(1 : Fin 8)] ≠ 0#8 ∧ (at_ 0#8 [] regs).x[(0 : Fin 8)] = 0#8 ∧
    (at_ 0#8 [] regs).x[(0 : Fin 8)] = State.reset.x[(6 : Fin 8)] ∧
    (at_ 0#8 [] regs).x[(7 : Fin 8)] = State.reset.x[(7 : Fin 8)] := by decide
theorem witness_AluSameRegisterTwice : State.reset.x[(7 : Fin 8)] ≠ 0#8 := by decide
/-- The three orders of two values, at adjacent values about the sign bit and at the ends of the range. -/
theorem witness_CompareCompletes : (0x80#8 : Byte).toNat = (0x80#8 : Byte).toNat ∧
    (0x80#8 : Byte).toNat > (0x7F#8 : Byte).toNat ∧ (0x00#8 : Byte).toNat < (0xFF#8 : Byte).toNat := by decide
theorem witness_FlagsWrittenByCompareAndOnlyEIsRead :
    (exec (.jumpIfEqual (regNum 7)) State.reset = .next (State.reset.advance 2) ∧
      (∀ ra rb, Instr.jumpIfEqual (regNum 7) ≠ .compare ra rb) ∧
      (0x06#8 : Byte).getLsbD 0 = State.reset.fl.getLsbD 0) ∧
    (exec (.jump (regNum 7)) State.reset = .next (State.reset.setPc 0xF4#8) ∧
      ∀ r, Instr.jump (regNum 7) ≠ .jumpIfEqual r ∧ Instr.jump (regNum 7) ≠ .jumpIfNotEqual r) ∧
    exec (.compare (regNum 0) (regNum 7)) State.reset = .next ((State.reset.setFl 0x04#8).advance 3) :=
  ⟨⟨rfl, by simp, by decide⟩, ⟨rfl, by simp⟩, rfl⟩
theorem witness_FlagsHoldFourLegalValues :
    (RunsTo State.reset (State.reset.raise .unrecognizedInstruction) ∧ State.reset.fl = 0x00#8) ∧
    exec .halt { State.reset with fl := 0x04#8 } = .next (({ State.reset with fl := 0x04#8 } : State).advance 1).halt ∧
    ({ State.reset with fl := 0x04#8 } : State).fl ≠ 0x00#8 :=
  ⟨⟨.step .refl rfl, rfl⟩, rfl, by decide⟩
/-- SP = 1, the deepest push; SP one below the sentinel, the last pop. -/
theorem witness_stack_completions :
    (at_ 0#8 [] #v[0, 0, 0, 0, 0, 0, 0, 1]).x[7] ≠ 0#8 ∧
    (at_ 0#8 [] #v[0, 0, 0, 0, 0, 0, 0, 0xF3]).x[7].toNat < State.reset.cfg.stackEmpty.toNat ∧
    (at_ 0#8 [] #v[0, 0, 0, 0, 0, 0, 0, 0]).x[7].toNat < State.reset.cfg.stackEmpty.toNat := by decide
theorem witness_StackBoundFaults : (at_ 0#8 [] #v[0, 0, 0, 0, 0, 0, 0, 0]).x[7] = 0#8 ∧
    State.reset.cfg.stackEmpty.toNat ≤ State.reset.x[7].toNat := by decide
theorem witness_OnlyPushAndCallStore :
    (∃ t, exec (.push (regNum 1)) State.reset = .next t ∧ ((0xF4 : Nat) : Int) ≠ State.reset.pushAddr) ∧
    (∃ t, exec (.call (regNum 1)) { State.reset with x := #v[0, 0, 0, 0, 0, 0, 0, 0] } = .next t ∧
      t.fault ≠ State.reset.fault) ∧
    (∃ t, exec (.pop (regNum 1)) State.reset = .next t ∧
      ∀ r, Instr.pop (regNum 1) ≠ .push r ∧ Instr.pop (regNum 1) ≠ .call r) :=
  ⟨⟨_, rfl, by decide⟩, ⟨State.raise { State.reset with x := #v[0, 0, 0, 0, 0, 0, 0, 0] } .addressOutOfBounds, rfl, by decide⟩,
    ⟨_, rfl, by simp⟩⟩
/-- K3 with the code in the last four cells (PUSH at 251, POP at 253), and SP at its lowest and highest. -/
theorem witness_PushThenPopRestores : ∀ sp ∈ [0x01#8, 0xF4#8],
    let s := at_ 0xFB#8 [0x45#8, 2#8, 0x46#8, 2#8] #v[0, 0, 0xAB, 0, 0, 0, 0, sp]
    (2 : Fin 8) ≠ 7 ∧ s.run = .running ∧ s.pc.toNat < 255 ∧ (s.pc + 2#8).toNat < 255 ∧
    s.mem.read s.pc.toNat = 0x45#8 ∧ s.mem.read (s.pc.toNat + 1) = regNum 2 ∧
    s.mem.read (s.pc + 2#8).toNat = 0x46#8 ∧ s.mem.read ((s.pc + 2#8).toNat + 1) = regNum 2 ∧
    1 ≤ s.x[7].toNat ∧ s.x[7].toNat ≤ s.cfg.stackEmpty.toNat ∧
    s.x[7].toNat - 1 ≠ (s.pc + 2#8).toNat ∧ s.x[7].toNat - 1 ≠ (s.pc + 2#8).toNat + 1 := by decide
theorem witness_TransferWritesTargetOrNext : State.reset.x[7] ≠ 0#8 ∧
    (at_ 0#8 [] #v[0, 0, 0, 0, 0, 0, 0, 0xF3]).x[7].toNat < State.reset.cfg.stackEmpty.toNat := by decide
/-- CALL at 254, its target a RETURN at 16. -/
theorem witness_CallThenReturnRestores :
    let s : State := { at_ 0xFE#8 [0x50#8, 2#8] #v[0, 0, 0x10, 0, 0, 0, 0, 0xF4] with
      mem := Memory.writeBytes (Memory.writeBytes [] 0xFE [0x50#8, 2#8]) 0x10 [0x11#8] }
    s.run = .running ∧ s.pc.toNat < 255 ∧ s.mem.read s.pc.toNat = 0x50#8 ∧
    s.mem.read (s.pc.toNat + 1) = regNum 2 ∧ 1 ≤ s.x[7].toNat ∧ s.x[7].toNat ≤ s.cfg.stackEmpty.toNat ∧
    (s.decSp.reg 2).toNat ≠ s.x[7].toNat - 1 ∧ s.mem.read (s.decSp.reg 2).toNat = 0x11#8 := by decide
theorem witness_IllegalRegisterNumberFaults : (Instr.jumpIfNotEqual 8#8).wellFormed = false ∧
    (Instr.div 7#8 0xFF#8).wellFormed = false := by decide
theorem witness_RegistersReadAndWrittenAsTabled : (Instr.pop (regNum 1)).wellFormed = true ∧
    exec (.pop (regNum 1)) { State.reset with x := #v[0, 0, 0, 0, 0, 0, 0, 0xF3] } =
      .next { State.reset with x := #v[0, 0, 0, 0, 0, 0, 0, 0xF4], pc := 2#8 } ∧
    regNum 2 ∉ registersWritten (.pop (regNum 1)) ∧ regNum 1 ∉ registersRead (.pop (regNum 1)) State.reset ∧
    regNum 1 ∈ registersWritten (.pop (regNum 1)) ∧ regNum 7 ∈ registersWritten (.pop (regNum 7)) ∧
    regNum 7 ∈ registersRead (.sub (regNum 7) (regNum 6)) State.reset ∧
    Instr.sub (regNum 7) (regNum 6) ≠ .sub (regNum 7) (regNum 7) ∧
    Instr.sub (regNum 7) (regNum 6) ≠ .compare (regNum 7) (regNum 7) :=
  ⟨by decide, rfl, by decide, by decide, by decide, by decide, by decide, by decide, by decide⟩
theorem witness_OnlyCallDependsOnPc :
    (exec (.call (regNum 1)) State.reset = .next { State.reset with
      x := #v[0, 0, 0, 0, 0, 0, 0, 0xF3], mem := [(0xF3, 2#8)], pc := 0#8 } ∧ State.reset.x[7] ≠ 0#8) ∧
    exec (.print (regNum 1)) State.reset = .next ((State.reset.output 0#8).advance 2) ∧
    (∀ r, Instr.print (regNum 1) ≠ .call r ∧ Instr.print (regNum 1) ≠ .jump r ∧
      Instr.print (regNum 1) ≠ .jumpIfEqual r ∧ Instr.print (regNum 1) ≠ .jumpIfNotEqual r) ∧
    Instr.print (regNum 1) ≠ .ret :=
  ⟨⟨rfl, by decide⟩, rfl, by simp, by simp⟩
theorem witness_MemoryPortContract : ((-1 : Int) < 0 ∨ 255 < (-1 : Int)) ∧ ((256 : Int) < 0 ∨ 255 < (256 : Int)) ∧
    (0 ≤ (0 : Int) ∧ (0 : Int) ≤ 255) ∧ (0 ≤ (255 : Int) ∧ (255 : Int) ≤ 255) ∧ ((254 : Nat) : Int) ≠ 255 := by decide
theorem witness_CanonicalMemoryIsUnique : Memory.wf [(0, 1#8), (255, 0xFF#8)] = true ∧
    Memory.wf [(256, 1#8)] = false ∧ Memory.wf [(3, 0#8)] = false ∧ Memory.wf [(4, 1#8), (4, 2#8)] = false := by decide
/-- The pushed cell as the next opcode (P13), as its operand (P12), as a byte of the instruction at a CALL's own
target, and at PUSH R7; a fetch that reaches address 255. -/
theorem witness_FetchSeesThePushedByte :
    let s (pc sp : Byte) : State := at_ pc [] #v[0, 0x30, 0, 0, 0, 0, 0, sp]
    (s 0x10#8 0x13#8).x[7] ≠ 0#8 ∧
    ((s 0x10#8 0x13#8).advance 2).pc.toNat = (s 0x10#8 0x13#8).x[7].toNat - 1 ∧
    ((s 0x10#8 0x14#8).advance 2).pc.toNat + 1 = (s 0x10#8 0x14#8).x[7].toNat - 1 ∧
    (s 0x10#8 0x33#8).x[1].toNat + 2 = (s 0x10#8 0x33#8).x[7].toNat - 1 ∧
    ((s 0xFB#8 0xFF#8).advance 2).pc.toNat + 2 < 256 := by decide
/-- P12: the operand byte a PUSH has just overwritten; CALL R7 jumps to the byte it pushed. -/
theorem test_fetch_pushed_operand :
    after (at_ 0x06#8 [0x45#8, 0#8, 0x47#8, 0#8] #v[1, 0, 0, 0, 0, 0, 0, 0x0A]) (fun t => t.fetchWindow.take 2) =
      some [0x47#8, 1#8] ∧
    after (at_ 0x10#8 [0x50#8, 7#8] regs) (fun t => t.fetchWindow.take 1) = some [0x12#8] := by decide
theorem witness_StepKeepsInvariant : State.reset.Inv ∧
    step State.reset = .next (State.reset.raise .unrecognizedInstruction) :=
  ⟨⟨by decide, by decide, by decide, by decide⟩, rfl⟩
theorem witness_LaunchLoadsTheImage : (List.replicate 256 0x01#8 : List Byte).length ≤ 256 ∧
    256 < (List.replicate 257 0x01#8 : List Byte).length := by
  rw [List.length_replicate, List.length_replicate]; omega
theorem witness_LaunchedStatesMeetInvariant : launch Config.default [0x01#8] = .next { State.reset with mem := [(0, 0x01#8)] } ∧
    RunsTo { State.reset with mem := [(0, 0x01#8)] }
      { State.reset with mem := [(0, 0x01#8)], pc := 1#8, run := .halted } :=
  ⟨rfl, .step .refl rfl⟩
/-- A state with a fault recorded, one Running and not at reset, and one at reset. -/
theorem witness_HostInteractions : State.reset.halt.run = .halted ∧
    (at_ 0#8 [] regs).run = .running ∧ at_ 0#8 [] regs ≠ State.resetWith (at_ 0#8 [] regs).cfg ∧ State.reset.Inv :=
  ⟨rfl, rfl, by decide, ⟨by decide, by decide, by decide, by decide⟩⟩
theorem witness_OnlyResetLeavesHalted :
    hostAct .reset (State.reset.raise .divisionByZero) = .next State.reset ∧
    (State.reset.raise .divisionByZero).run = .halted ∧ (State.reset.raise .divisionByZero).fault ≠ none ∧
    State.reset.fault = none := ⟨rfl, rfl, by decide, rfl⟩
theorem witness_HostActionsKeepInvariant : State.reset.Inv ∧ hostAct .reset State.reset = .next State.reset ∧
    hostAct (.load [0x01#8]) State.reset = .next { State.reset with mem := [(0, 0x01#8)] } ∧
    hostAct .step State.reset = .next (State.reset.raise .unrecognizedInstruction) :=
  ⟨⟨by decide, by decide, by decide, by decide⟩, rfl, rfl, rfl⟩
theorem witness_FaultCodes : State.reset.fault = none ∧ State.reset.faultCode = State.reset.halt.faultCode := by decide

end Sys2Proof.Tests
end

section
/-! SUPPORT. What each instruction can do, said once: the relation `Effect`, with every guard, is `exec`'s graph. -/

namespace Sys2Proof.Machine

/-! ### Register numbers and the register file -/

theorem regNum_inj {a b : Fin 8} : regNum a = regNum b ↔ a = b := by
  rw [← BitVec.toNat_inj, regNum_toNat, regNum_toNat, Fin.ext_iff]

theorem regNum_eq_seven {a : Fin 8} : regNum a = 7#8 ↔ a = 7 := regNum_inj (b := 7)

/-- A register of the register file after another one is set. -/
theorem getElem_set_other (x : Vector Byte 8) (v : Byte) {j a : Fin 8} (h : j ≠ a) : (x.set a v)[j] = x[j] :=
  Vector.getElem_set_ne _ _ (Fin.val_ne_of_ne h.symm)

theorem set_set_other (x : Vector Byte 8) (v w : Byte) {j a : Fin 8} (h : j ≠ a) :
    (x.set j v).set a w = (x.set a w).set j v :=
  Vector.set_comm _ _ (Fin.val_ne_of_ne h)

theorem set_set_seven (x : Vector Byte 8) (v w : Byte) {j : Fin 8} (h : j ≠ 7) :
    (x.set j v).set 7 w = (x.set 7 w).set j v :=
  set_set_other (a := 7) x v w h

@[simp] theorem setReg_flagE (s : State) (j : Fin 8) (v : Byte) : (s.setReg j v).flagE = s.flagE := rfl

/-! ### The case split of an instruction -/

/-- An instruction either names an illegal register number or is one of the 15 forms over `regNum` (R84, R89). -/
theorem instr_legal_cases {motive : Instr → Prop} (i : Instr)
    (illegal : ∀ i, i.wellFormed = false → motive i)
    (halt : motive .halt) (loadImmediate : ∀ a imm, motive (.loadImmediate (regNum a) imm))
    (print : ∀ a, motive (.print (regNum a)))
    (mul : ∀ a b, motive (.mul (regNum a) (regNum b))) (add : ∀ a b, motive (.add (regNum a) (regNum b)))
    (sub : ∀ a b, motive (.sub (regNum a) (regNum b))) (div : ∀ a b, motive (.div (regNum a) (regNum b)))
    (pop : ∀ a, motive (.pop (regNum a))) (push : ∀ a, motive (.push (regNum a)))
    (call : ∀ a, motive (.call (regNum a))) (ret : motive .ret) (jump : ∀ a, motive (.jump (regNum a)))
    (compare : ∀ a b, motive (.compare (regNum a) (regNum b)))
    (jumpIfEqual : ∀ a, motive (.jumpIfEqual (regNum a)))
    (jumpIfNotEqual : ∀ a, motive (.jumpIfNotEqual (regNum a))) : motive i := by
  have legal : ∀ {r : RegNum}, r.legal = true → ∃ a, r = regNum a := fun h =>
    ⟨_, eq_regNum (by simpa [RegNum.legal] using h)⟩
  cases hw : i.wellFormed with
  | false => exact illegal i hw
  | true =>
    cases i <;> simp only [Instr.wellFormed, Instr.regOperands, List.all_cons, List.all_nil, Bool.and_true,
      Bool.and_eq_true] at hw
    case halt => exact halt
    case ret => exact ret
    case loadImmediate ra imm => obtain ⟨a, rfl⟩ := legal hw; exact loadImmediate a imm
    case print ra => obtain ⟨a, rfl⟩ := legal hw; exact print a
    case pop ra => obtain ⟨a, rfl⟩ := legal hw; exact pop a
    case push ra => obtain ⟨a, rfl⟩ := legal hw; exact push a
    case call ra => obtain ⟨a, rfl⟩ := legal hw; exact call a
    case jump ra => obtain ⟨a, rfl⟩ := legal hw; exact jump a
    case jumpIfEqual ra => obtain ⟨a, rfl⟩ := legal hw; exact jumpIfEqual a
    case jumpIfNotEqual ra => obtain ⟨a, rfl⟩ := legal hw; exact jumpIfNotEqual a
    case mul ra rb => obtain ⟨⟨a, rfl⟩, b, rfl⟩ := hw.imp legal legal; exact mul a b
    case add ra rb => obtain ⟨⟨a, rfl⟩, b, rfl⟩ := hw.imp legal legal; exact add a b
    case sub ra rb => obtain ⟨⟨a, rfl⟩, b, rfl⟩ := hw.imp legal legal; exact sub a b
    case div ra rb => obtain ⟨⟨a, rfl⟩, b, rfl⟩ := hw.imp legal legal; exact div a b
    case compare ra rb => obtain ⟨⟨a, rfl⟩, b, rfl⟩ := hw.imp legal legal; exact compare a b

/-! ### The effect of an instruction -/

/-- `Effect s i t`: `i` leads from `s` to `t`, with the guard under which it does; each fault is a case of its own. -/
inductive Effect (s : State) : Instr → State → Prop
  | halt : Effect s .halt { s with pc := s.pc + 1#8, run := .halted }
  | loadImmediate (a : Fin 8) (imm : Byte) :
      Effect s (.loadImmediate (regNum a) imm) { s with x := s.x.set a imm, pc := s.pc + 3#8 }
  | print (a : Fin 8) : Effect s (.print (regNum a)) { s with out := s.out ++ [s.x[a]], pc := s.pc + 2#8 }
  | mul (a b : Fin 8) : Effect s (.mul (regNum a) (regNum b))
      { s with x := s.x.set a (aluMul s.x[a] s.x[b]), pc := s.pc + 3#8 }
  | add (a b : Fin 8) : Effect s (.add (regNum a) (regNum b))
      { s with x := s.x.set a (aluAdd s.x[a] s.x[b]), pc := s.pc + 3#8 }
  | sub (a b : Fin 8) : Effect s (.sub (regNum a) (regNum b))
      { s with x := s.x.set a (aluSub s.x[a] s.x[b]), pc := s.pc + 3#8 }
  | div (a b : Fin 8) (h : s.x[b] ≠ 0#8) : Effect s (.div (regNum a) (regNum b))
      { s with x := s.x.set a (s.x[a] / s.x[b]), pc := s.pc + 3#8 }
  | divByZero (a b : Fin 8) (h : s.x[b] = 0#8) :
      Effect s (.div (regNum a) (regNum b)) (s.raise .divisionByZero)
  | pop (a : Fin 8) (h : s.x[7].toNat < s.cfg.stackEmpty.toNat) : Effect s (.pop (regNum a)) { s with
      x := if a = 7 then s.x.set 7 (s.mem.read s.x[7].toNat + 1#8)
        else (s.x.set a (s.mem.read s.x[7].toNat)).set 7 (s.x[7] + 1#8)
      pc := s.pc + 2#8 }
  | popEmpty (a : Fin 8) (h : s.cfg.stackEmpty.toNat ≤ s.x[7].toNat) :
      Effect s (.pop (regNum a)) (s.raise .stackUnderflow)
  | push (a : Fin 8) (h : s.x[7] ≠ 0#8) : Effect s (.push (regNum a)) { s with
      x := s.x.set 7 (s.x[7] - 1#8)
      mem := s.mem.write (s.x[7].toNat - 1) (if a = 7 then s.x[7] - 1#8 else s.x[a])
      pc := s.pc + 2#8 }
  | pushFull (a : Fin 8) (h : s.x[7] = 0#8) : Effect s (.push (regNum a)) (s.raise .addressOutOfBounds)
  | call (a : Fin 8) (h : s.x[7] ≠ 0#8) : Effect s (.call (regNum a)) { s with
      x := s.x.set 7 (s.x[7] - 1#8)
      mem := s.mem.write (s.x[7].toNat - 1) (s.pc + 2#8)
      pc := if a = 7 then s.x[7] - 1#8 else s.x[a] }
  | callFull (a : Fin 8) (h : s.x[7] = 0#8) : Effect s (.call (regNum a)) (s.raise .addressOutOfBounds)
  | ret (h : s.x[7].toNat < s.cfg.stackEmpty.toNat) :
      Effect s .ret { s with x := s.x.set 7 (s.x[7] + 1#8), pc := s.mem.read s.x[7].toNat }
  | retEmpty (h : s.cfg.stackEmpty.toNat ≤ s.x[7].toNat) : Effect s .ret (s.raise .stackUnderflow)
  | jump (a : Fin 8) : Effect s (.jump (regNum a)) { s with pc := s.x[a] }
  | compare (a b : Fin 8) : Effect s (.compare (regNum a) (regNum b))
      { s with fl := compareFlags s.x[a] s.x[b], pc := s.pc + 3#8 }
  | jumpIfEqual (a : Fin 8) :
      Effect s (.jumpIfEqual (regNum a)) { s with pc := if s.flagE then s.x[a] else s.pc + 2#8 }
  | jumpIfNotEqual (a : Fin 8) :
      Effect s (.jumpIfNotEqual (regNum a)) { s with pc := if s.flagE then s.pc + 2#8 else s.x[a] }
  | illegal {i : Instr} (h : i.wellFormed = false) : Effect s i (s.raise .invalidRegisterIndex)

theorem Effect.congr {s t t' : State} {i : Instr} (e : Effect s i t) (h : t = t') : Effect s i t' := h ▸ e

/-! ### `Effect` is the graph of `exec` -/

/-- An illegal register number raises InvalidRegisterIndex on every path (R89). -/
theorem exec_illegal {i : Instr} (h : i.wellFormed = false) (s : State) :
    exec i s = raise .invalidRegisterIndex s := by
  have illegal : ∀ {r : RegNum}, r.legal = false → ¬ r.toNat < 8 := by simp [RegNum.legal]
  cases i <;> simp only [Instr.wellFormed, Instr.regOperands, List.all_cons, List.all_nil, Bool.and_true,
    Bool.and_eq_false_iff, Bool.true_eq_false] at h
  case loadImmediate | print | pop | push | call | jump | jumpIfEqual | jumpIfNotEqual =>
    exact withReg_illegal (illegal h) s _
  case mul | add | sub | div | compare => exact withRegs_illegal (h.imp illegal illegal) s _

/-- The exact quotient modulo 256 is the quotient of the bytes (R124). -/
theorem aluDiv_eq (u v : Byte) : aluDiv u v = if v = 0#8 then .error .divisionByZero else .ok (u / v) := by
  have quotient : mod256 ((u.toNat / v.toNat : Nat) : Int) = u / v := by
    rw [mod256_ofNat, ← BitVec.toNat_udiv, BitVec.ofNat_toNat, BitVec.setWidth_eq]
  simp only [aluDiv, quotient, ← BitVec.toNat_inj (y := 0#8), BitVec.toNat_ofNat, Nat.zero_mod]

/-- POP past its guard (R142, R143). -/
theorem setReg_incSp_advance (s : State) (a : Fin 8) (v : Byte) :
    (s.setReg a v).incSp.advance 2 = { s with
      x := if a = 7 then s.x.set 7 (v + 1#8) else (s.x.set a v).set 7 (s.x[7] + 1#8)
      pc := s.pc + 2#8 } := by
  rw [incSp_eq, State.sp, spIndex, setReg_reg, State.advance, pcAfter_eq]
  by_cases h : a = 7
  · subst h; simp [State.setPc, State.setReg]
  · rw [if_neg h, if_neg h]; rfl

theorem Effect.exec_eq {s t : State} {i : Instr} (e : Effect s i t) : exec i s = .next t := by
  cases e with
  | illegal h => exact exec_illegal h s
  | halt => rw [← pcAfter_eq]; rfl
  | loadImmediate a imm => rw [← pcAfter_eq]; exact withReg_regNum a s _
  | print a => rw [← pcAfter_eq]; exact withReg_regNum a s _
  | mul a b | add a b | sub a b | compare a b => rw [← pcAfter_eq]; exact withRegs_regNum a b s _
  | div a b h =>
    rw [← pcAfter_eq]
    refine (withRegs_regNum a b s _).trans ?_
    rw [aluDiv_eq, if_neg (show s.reg b ≠ 0#8 from h)]; rfl
  | divByZero a b h =>
    refine (withRegs_regNum a b s _).trans ?_
    rw [aluDiv_eq, if_pos (show s.reg b = 0#8 from h)]; rfl
  | pop a h =>
    refine (withReg_regNum a s _).trans ?_
    rw [stackTop_ok s h, orRaise_ok, setReg_incSp_advance]
  | popEmpty a h => refine (withReg_regNum a s _).trans ?_; rw [stackTop_empty s h]; rfl
  | push a h =>
    refine (withReg_regNum a s _).trans ?_
    rw [push_ok s _ h, ← decSp_reg, ← pcAfter_eq]; rfl
  | call a h =>
    refine (withReg_regNum a s _).trans ?_
    rw [push_ok s _ h, ← decSp_reg, ← pcAfter_eq, decSp_eq]; rfl
  | pushFull a h | callFull a h => refine (withReg_regNum a s _).trans ?_; rw [push_full s _ h]; rfl
  | ret h => rw [exec, execRet, stackTop_ok s h, incSp_eq]; rfl
  | retEmpty h => rw [exec, execRet, stackTop_empty s h]; rfl
  | jump a => exact withReg_regNum a s _
  | jumpIfEqual a | jumpIfNotEqual a =>
    rw [← pcAfter_eq]
    refine (withReg_regNum a s _).trans ?_
    split <;> rfl

/-- Every instruction has an effect in every state. -/
theorem exists_effect (i : Instr) (s : State) : ∃ t, Effect s i t := by
  cases i using instr_legal_cases with
  | illegal i h => exact ⟨_, .illegal h⟩
  | div a b =>
    by_cases h : s.x[b] = 0#8
    · exact ⟨_, .divByZero a b h⟩
    · exact ⟨_, .div a b h⟩
  | pop a => exact (Nat.lt_or_ge _ _).elim (fun h => ⟨_, .pop a h⟩) fun h => ⟨_, .popEmpty a h⟩
  | ret => exact (Nat.lt_or_ge _ _).elim (fun h => ⟨_, .ret h⟩) fun h => ⟨_, .retEmpty h⟩
  | push a => exact (eq_or_ne _ _).elim (fun h => ⟨_, .pushFull a h⟩) fun h => ⟨_, .push a h⟩
  | call a => exact (eq_or_ne _ _).elim (fun h => ⟨_, .callFull a h⟩) fun h => ⟨_, .call a h⟩
  | _ => exact ⟨_, by constructor⟩

theorem exec_eq_next_iff {i : Instr} {s t : State} : exec i s = .next t ↔ Effect s i t := by
  refine ⟨fun h => ?_, Effect.exec_eq⟩
  obtain ⟨u, hu⟩ := exists_effect i s
  cases hu.exec_eq.symm.trans h
  exact hu

end Sys2Proof.Machine
end

section
/-! The flags register (10_state.md R34, R35): O19, O20. -/

namespace Sys2Proof.Machine

variable {i : Instr} {s t : State}

/-- R34: only a COMPARE of legal registers writes FL. -/
theorem Effect.fl_eq (e : Effect s i t) (hi : ∀ a b, i ≠ .compare (regNum a) (regNum b)) : t.fl = s.fl := by
  cases e with
  | compare a b => exact absurd rfl (hi a b)
  | _ => rfl

/-- R34: FL reaches nothing but FL, where the change keeps E or the instruction is no conditional jump. -/
theorem Effect.setFl {v : Byte} (e : Effect s i t) (hi : ∀ a b, i ≠ .compare (regNum a) (regNum b))
    (hv : v.getLsbD 0 = s.fl.getLsbD 0 ∨ ∀ r, i ≠ .jumpIfEqual r ∧ i ≠ .jumpIfNotEqual r) :
    Effect (s.setFl v) i (t.setFl v) := by
  cases e with
  | compare a b => exact absurd rfl (hi a b)
  | jumpIfEqual a =>
    have hE : (s.setFl v).flagE = s.flagE := hv.resolve_right fun h => (h (regNum a)).1 rfl
    rw [← hE]; exact .jumpIfEqual a
  | jumpIfNotEqual a =>
    have hE : (s.setFl v).flagE = s.flagE := hv.resolve_right fun h => (h (regNum a)).2 rfl
    rw [← hE]; exact .jumpIfNotEqual a
  | _ => constructor <;> assumption

/-- Settles O19: a legal COMPARE overwrites FL whatever it was, and every other effect commutes with setting FL. -/
theorem flagsWrittenByCompareAndOnlyEIsRead : Obligations.FlagsWrittenByCompareAndOnlyEIsRead := by
  intro i s t h
  have e := exec_eq_next_iff.1 h
  refine ⟨fun hi => e.fl_eq fun a b => hi _ _, fun v hv => ?_⟩
  by_cases hi : ∃ a b, i = .compare (regNum a) (regNum b)
  · obtain ⟨a, b, rfl⟩ := hi
    cases (Effect.compare a b).exec_eq.symm.trans h
    exact ⟨_, (Effect.compare a b).exec_eq, rfl, fun _ => rfl⟩
  · have hne : ∀ a b, i ≠ .compare (regNum a) (regNum b) := fun a b hc => hi ⟨a, b, hc⟩
    exact ⟨t.setFl v, (e.setFl hne hv).exec_eq, rfl, fun hc => absurd hc hi⟩

/-- The flags a comparison can leave: exactly one is set (R125, R35). -/
theorem compareFlags_one_set (a b : Byte) :
    compareFlags a b = 0x01#8 ∨ compareFlags a b = 0x02#8 ∨ compareFlags a b = 0x04#8 :=
  (compareFlags_cases a b).imp And.right (Or.imp And.right And.right)

/-- R35: an instruction leaves FL or sets exactly one flag. -/
theorem Effect.fl_cases (e : Effect s i t) : t.fl = s.fl ∨ t.fl = 0x01#8 ∨ t.fl = 0x02#8 ∨ t.fl = 0x04#8 := by
  cases e with
  | compare a b => exact .inr (compareFlags_one_set _ _)
  | _ => exact .inl rfl

/-- R35: so does a step. -/
theorem step_fl_cases (h : step s = .next t) : t.fl = s.fl ∨ t.fl = 0x01#8 ∨ t.fl = 0x02#8 ∨ t.fl = 0x04#8 := by
  obtain ⟨-, ⟨e, -, rfl⟩ | ⟨i, rest, -, hi⟩⟩ := step_cases h
  · exact .inl rfl
  · exact (exec_eq_next_iff.1 hi).fl_cases

/-- Settles O20, by induction on the run: each instruction leaves FL or sets exactly one flag. -/
theorem flagsHoldFourLegalValues : Obligations.FlagsHoldFourLegalValues := by
  refine ⟨fun s t hrun hs => ?_, fun s a b => ?_, fun i s t h hs => ?_⟩
  · induction hrun with
    | refl => exact hs
    | step _ hstep ih =>
      rcases step_fl_cases hstep with hfl | hfl
      · rwa [hfl]
      · exact .inr hfl
  · exact ⟨_, (Effect.compare a b).exec_eq, compareFlags_one_set _ _⟩
  · rcases (exec_eq_next_iff.1 h).fl_cases with hfl | hfl | hfl | hfl
    · rwa [hfl]
    all_goals rw [hfl]; decide

end Sys2Proof.Machine
end

section
/-! The program counter (10_state.md R31): O34. -/

namespace Sys2Proof.Machine

variable {i : Instr} {s t : State}

/-- R31: PC reaches nothing but PC, and memory only in CALL. -/
theorem Effect.setPc (e : Effect s i t) (p : Byte) :
    ∃ q m, Effect (s.setPc p) i { t with pc := q, mem := m } ∧ ((∀ r, i ≠ .call r) → m = t.mem) := by
  cases e with
  | call a h => exact ⟨_, _, .call a h, fun hi => absurd rfl (hi _)⟩
  | _ => exact ⟨_, _, by constructor <;> assumption, fun _ => rfl⟩

/-- R28: an instruction that transfers no control sets PC to the address after its encoding, or raises a fault. -/
theorem Effect.pc_sequential (e : Effect s i t)
    (hi : ∀ r, i ≠ .call r ∧ i ≠ .jump r ∧ i ≠ .jumpIfEqual r ∧ i ≠ .jumpIfNotEqual r)
    (hret : i ≠ .ret) :
    t.pc = s.pc + BitVec.ofNat 8 (encode i).length ∨ t = s.raise .invalidRegisterIndex ∨
      t = s.raise .divisionByZero ∨ t = s.raise .addressOutOfBounds ∨ t = s.raise .stackUnderflow := by
  cases e with
  | call a | callFull a => exact absurd rfl (hi _).1
  | jump a => exact absurd rfl (hi _).2.1
  | jumpIfEqual a => exact absurd rfl (hi _).2.2.1
  | jumpIfNotEqual a => exact absurd rfl (hi _).2.2.2
  | ret | retEmpty => exact absurd rfl hret
  | illegal => exact .inr (.inl rfl)
  | divByZero => exact .inr (.inr (.inl rfl))
  | pushFull => exact .inr (.inr (.inr (.inl rfl)))
  | popEmpty => exact .inr (.inr (.inr (.inr rfl)))
  | _ => exact .inl rfl

/-- Settles O34: PC reaches nothing but PC, the byte a CALL pushes, and the sequential address. -/
theorem onlyCallDependsOnPc : Obligations.OnlyCallDependsOnPc := by
  intro i s t p h
  have e := exec_eq_next_iff.1 h
  refine ⟨?_, e.pc_sequential, ?_⟩
  · obtain ⟨q, m, e', hm⟩ := e.setPc p
    exact ⟨_, e'.exec_eq, rfl, rfl, rfl, rfl, rfl, hm⟩
  · rintro k rfl hsp
    cases (Effect.call k hsp).exec_eq.symm.trans h
    exact Memory.read_write_same _ _ _

end Sys2Proof.Machine
end

section
/-! The register table (10_state.md R25): O33. -/

namespace Sys2Proof.Machine

variable {i : Instr} {s t : State} {k : Fin 8}

/-! ### Outside the row -/

/-- R25: a register outside the row of written registers is unchanged. -/
theorem Effect.reg_eq (e : Effect s i t) (hk : regNum k ∉ registersWritten i) : t.x[k] = s.x[k] := by
  cases e with
  | loadImmediate a | mul a | add a | sub a | div a =>
    have ha : k ≠ a := by simpa [registersWritten, regNum_inj] using hk
    exact getElem_set_other _ _ ha
  | push | call | ret =>
    have h7 : k ≠ 7 := by simpa [registersWritten, regNum_eq_seven] using hk
    exact getElem_set_other _ _ h7
  | pop a =>
    obtain ⟨ha, h7⟩ : k ≠ a ∧ k ≠ 7 := by simpa [registersWritten, regNum_inj, regNum_eq_seven] using hk
    dsimp only
    split
    · exact getElem_set_other _ _ h7
    · exact (getElem_set_other _ _ h7).trans (getElem_set_other _ _ ha)
  | _ => rfl

/-- R25: a register that is not read has no influence: it is overwritten alike, or kept as it was or was put. -/
theorem Effect.setReg_of_unread (e : Effect s i t) (hw : i.wellFormed = true)
    (hk : regNum k ∉ registersRead i s) (v : Byte) :
    Effect (s.setReg k v) i t ∨ t.x[k] = s.x[k] ∧ Effect (s.setReg k v) i (t.setReg k v) := by
  have other : ∀ {a : Fin 8}, k ≠ a → (s.setReg k v).x[a] = s.x[a] := fun h => getElem_set_other _ _ h.symm
  have sp : k ≠ 7 → (s.setReg k v).x[7] = s.x[7] := other (a := 7)
  cases e with
  | illegal h => simp [h] at hw
  | halt => exact .inr ⟨rfl, .halt⟩
  | loadImmediate a imm =>
    by_cases ha : k = a
    · subst ha
      exact .inl ((Effect.loadImmediate k imm).congr (by simp [State.setReg]))
    · refine .inr ⟨getElem_set_other _ _ ha, (Effect.loadImmediate a imm).congr ?_⟩
      simp only [State.setReg, set_set_other _ _ _ ha]
  | print a | jump a =>
    have ha : k ≠ a := by simpa [registersRead, regNum_inj] using hk
    exact .inr ⟨rfl, Effect.congr (by constructor) (by rw [other ha]; rfl)⟩
  | jumpIfEqual a =>
    refine .inr ⟨rfl, (Effect.jumpIfEqual a).congr ?_⟩
    by_cases ha : k = a
    · subst ha
      have hE : s.flagE = false := by simpa [registersRead] using hk
      rw [setReg_flagE, hE]; rfl
    · rw [other ha]; rfl
  | jumpIfNotEqual a =>
    refine .inr ⟨rfl, (Effect.jumpIfNotEqual a).congr ?_⟩
    by_cases ha : k = a
    · subst ha
      have hE : s.flagE = true := by simpa [registersRead] using hk
      rw [setReg_flagE, hE]; rfl
    · rw [other ha]; rfl
  | mul a b | add a b | sub a b =>
    obtain ⟨ha, hb⟩ : k ≠ a ∧ k ≠ b := by simpa [registersRead, regNum_inj] using hk
    refine .inr ⟨getElem_set_other _ _ ha, Effect.congr (by constructor) ?_⟩
    rw [other ha, other hb]
    simp only [State.setReg, set_set_other _ _ _ ha]
  | compare a b =>
    obtain ⟨ha, hb⟩ : k ≠ a ∧ k ≠ b := by simpa [registersRead, regNum_inj] using hk
    exact .inr ⟨rfl, (Effect.compare a b).congr (by rw [other ha, other hb]; rfl)⟩
  | div a b h =>
    obtain ⟨ha, hb⟩ : k ≠ a ∧ k ≠ b := by simpa [registersRead, regNum_inj] using hk
    refine .inr ⟨getElem_set_other _ _ ha, (Effect.div a b (by rwa [other hb])).congr ?_⟩
    rw [other ha, other hb]
    simp only [State.setReg, set_set_other _ _ _ ha]
  | divByZero a b h =>
    obtain ⟨-, hb⟩ : k ≠ a ∧ k ≠ b := by simpa [registersRead, regNum_inj] using hk
    exact .inr ⟨rfl, .divByZero a b (by rwa [other hb])⟩
  | push a h | call a h =>
    obtain ⟨h7, ha⟩ : k ≠ 7 ∧ k ≠ a := by simpa [registersRead, regNum_inj, regNum_eq_seven] using hk
    refine .inr ⟨getElem_set_other _ _ h7, Effect.congr (by constructor; rwa [sp h7]) ?_⟩
    rw [sp h7, other ha]
    simp only [State.setReg, set_set_seven _ _ _ h7]
  | pushFull a h | callFull a h =>
    obtain ⟨h7, -⟩ : k ≠ 7 ∧ k ≠ a := by simpa [registersRead, regNum_inj, regNum_eq_seven] using hk
    exact .inr ⟨rfl, by constructor; rwa [sp h7]⟩
  | pop a h =>
    have h7 : k ≠ 7 := by simpa [registersRead, regNum_eq_seven] using hk
    have e := Effect.pop (s := s.setReg k v) a (by rwa [sp h7])
    rw [sp h7] at e
    by_cases ha : k = a
    · subst ha
      exact .inl (e.congr (by simp [State.setReg, h7]))
    · have unwritten : regNum k ∉ registersWritten (.pop (regNum a)) := by
        simp [registersWritten, regNum_inj, regNum_eq_seven, ha, h7]
      refine .inr ⟨(Effect.pop a h).reg_eq unwritten, e.congr ?_⟩
      simp only [State.setReg]
      split <;> simp only [set_set_seven _ _ _ h7, set_set_other _ _ _ ha]
  | ret h =>
    have h7 : k ≠ 7 := by simpa [registersRead, regNum_eq_seven] using hk
    refine .inr ⟨getElem_set_other _ _ h7, (Effect.ret (by rwa [sp h7])).congr ?_⟩
    rw [sp h7]
    simp only [State.setReg, set_set_seven _ _ _ h7]
  | popEmpty _ h | retEmpty h =>
    have h7 : k ≠ 7 := by simpa [registersRead, regNum_eq_seven] using hk
    exact .inr ⟨rfl, by constructor; rwa [sp h7]⟩

/-! ### Inside the row -/

/-- A state in which no instruction but LOAD-IMMEDIATE of 2 keeps a register it writes, and a pop at SP = 0 differs
from one at SP = 2. -/
def probe (fl : Byte) : State :=
  { State.reset with x := Vector.replicate 8 2#8, mem := [(0, 1#8)], fl := fl }

@[simp] theorem probe_reg (fl : Byte) {j : Nat} (hj : j < 8) : (probe fl).x[j] = 2#8 := by simp [probe]

theorem probe_setReg_reg (fl : Byte) {j : Nat} (hj : j < 8) :
    ((probe fl).setReg k 0#8).x[j] = if k.val = j then 0#8 else 2#8 := by
  simp [State.setReg, Vector.getElem_set]

@[simp] theorem probe_flagE_none : (probe flNone).flagE = false := rfl

@[simp] theorem probe_flagE_equal : (probe flEqual).flagE = true := rfl

/-- R25: each register of the row of written registers is changed, without a fault, from some state. -/
theorem exists_effect_reg_ne (hw : i.wellFormed = true) (hk : regNum k ∈ registersWritten i) :
    ∃ s t : State, Effect s i t ∧ t.fault = s.fault ∧ t.x[k] ≠ s.x[k] := by
  cases i using instr_legal_cases with
  | illegal i h => simp [h] at hw
  | halt | print | jump | compare | jumpIfEqual | jumpIfNotEqual => simp [registersWritten] at hk
  | loadImmediate a imm =>
    obtain rfl : k = a := by simpa [registersWritten, regNum_inj] using hk
    exact ⟨(probe flNone).setReg k (imm + 1#8), _, .loadImmediate k imm, rfl, by simp [State.setReg]⟩
  | mul a b =>
    obtain rfl : k = a := by simpa [registersWritten, regNum_inj] using hk
    exact ⟨probe flNone, _, .mul k b, rfl, by simp [probe, aluMul, mod256]⟩
  | add a b =>
    obtain rfl : k = a := by simpa [registersWritten, regNum_inj] using hk
    exact ⟨probe flNone, _, .add k b, rfl, by simp [probe, aluAdd, mod256]⟩
  | sub a b =>
    obtain rfl : k = a := by simpa [registersWritten, regNum_inj] using hk
    exact ⟨probe flNone, _, .sub k b, rfl, by simp [probe, aluSub, mod256]⟩
  | div a b =>
    obtain rfl : k = a := by simpa [registersWritten, regNum_inj] using hk
    exact ⟨probe flNone, _, .div k b (by simp [probe]), rfl, by simp [probe]⟩
  | pop a =>
    have hk : k = a ∨ k = 7 := by simpa [registersWritten, regNum_inj, regNum_eq_seven] using hk
    refine ⟨probe flNone, _, .pop a (by decide), rfl, ?_⟩
    clear hw
    decide +revert
  | push a =>
    obtain rfl : k = 7 := by simpa [registersWritten, regNum_eq_seven] using hk
    exact ⟨probe flNone, _, .push a (by decide), rfl, by simp [probe]⟩
  | call a =>
    obtain rfl : k = 7 := by simpa [registersWritten, regNum_eq_seven] using hk
    exact ⟨probe flNone, _, .call a (by decide), rfl, by simp [probe]⟩
  | ret =>
    obtain rfl : k = 7 := by simpa [registersWritten, regNum_eq_seven] using hk
    exact ⟨probe flNone, _, .ret (by decide), rfl, by simp [probe]⟩

/-- The step from `s` to `t` and the step with `v` in register `k` to `t'` show no influence of that register beyond
its being kept. -/
def NoInfluence (k : Fin 8) (v : Byte) (s t t' : State) : Prop :=
  { t' with x := t'.x.set k 0#8 } = { t with x := t.x.set k 0#8 } ∧
    (t'.x[k] = t.x[k] ∨ (t'.x[k] = v ∧ t.x[k] = s.x[k]))

variable {t' : State} {v : Byte}

theorem NoInfluence.pc_eq (h : NoInfluence k v s t t') : t'.pc = t.pc := (congrArg State.pc h.1 :)
theorem NoInfluence.fl_eq (h : NoInfluence k v s t t') : t'.fl = t.fl := (congrArg State.fl h.1 :)
theorem NoInfluence.mem_eq (h : NoInfluence k v s t t') : t'.mem = t.mem := (congrArg State.mem h.1 :)
theorem NoInfluence.fault_eq (h : NoInfluence k v s t t') : t'.fault = t.fault := (congrArg State.fault h.1 :)
theorem NoInfluence.out_eq (h : NoInfluence k v s t t') : t'.out = t.out := (congrArg State.out h.1 :)

/-- A register the instruction changes must end alike. -/
theorem NoInfluence.reg_eq (h : NoInfluence k v s t t') {j : Fin 8} (hj : t.x[j] ≠ s.x[j]) : t'.x[j] = t.x[j] := by
  obtain ⟨hx, hk⟩ := h
  by_cases hjk : j = k
  · subst hjk
    exact hk.resolve_right fun h => hj h.2
  · have hset := congrArg (fun u : State => u.x[j]) hx
    simpa only [getElem_set_other _ _ hjk] using hset

/-- An operation on two registers of the probe, one of which is set to 0. -/
theorem op_zeroed_ne {op : Byte → Byte → Byte} {c fl : Byte} {a b : Fin 8} (hk : k = a ∨ k = b)
    (both : a = b → op 0#8 0#8 ≠ c) (left : op 0#8 2#8 ≠ c) (right : op 2#8 0#8 ≠ c) :
    op ((probe fl).setReg k 0#8).x[a] ((probe fl).setReg k 0#8).x[b] ≠ c := by
  simp only [Fin.getElem_fin, probe_setReg_reg, ← Fin.ext_iff]
  by_cases hab : a = b
  · obtain rfl : k = a := hk.elim id (·.trans hab.symm)
    simpa [hab] using both hab
  · rcases hk with rfl | rfl
    · simpa [hab] using left
    · simpa [Ne.symm hab] using right

/-- An operation that changes register `a` of the probe shows whether one of its operands is set to 0. -/
theorem not_noInfluence_of_op {op : Byte → Byte → Byte} {a b : Fin 8} {p p' : Byte} (hk : k = a ∨ k = b)
    (changes : op 2#8 2#8 ≠ 2#8) (both : a = b → op 0#8 0#8 ≠ op 2#8 2#8) (left : op 0#8 2#8 ≠ op 2#8 2#8)
    (right : op 2#8 0#8 ≠ op 2#8 2#8) :
    ¬ NoInfluence k 0#8 (probe flNone)
      { probe flNone with x := (probe flNone).x.set a (op (probe flNone).x[a] (probe flNone).x[b]), pc := p }
      { (probe flNone).setReg k 0#8 with
        x := ((probe flNone).setReg k 0#8).x.set a
          (op ((probe flNone).setReg k 0#8).x[a] ((probe flNone).setReg k 0#8).x[b])
        pc := p' } := by
  intro h
  have hx := h.reg_eq (j := a) (by simpa using changes)
  exact op_zeroed_ne hk both left right (by simpa using hx)

/-- R25: each register of the row of read registers influences the next state of some state in which it is read. -/
theorem exists_effect_influenced {s0 : State} (hw : i.wellFormed = true) (hk : regNum k ∈ registersRead i s0)
    (hsub : i ≠ .sub (regNum k) (regNum k)) (hcmp : i ≠ .compare (regNum k) (regNum k)) :
    ∃ (s t t' : State) (v : Byte), regNum k ∈ registersRead i s ∧ Effect s i t ∧
      Effect (s.setReg k v) i t' ∧ ¬ NoInfluence k v s t t' := by
  cases i using instr_legal_cases with
  | illegal i h => simp [h] at hw
  | halt | loadImmediate => simp [registersRead] at hk
  | print a =>
    obtain rfl : k = a := by simpa [registersRead, regNum_inj] using hk
    exact ⟨probe flNone, _, _, 0#8, hk, .print k, .print k, fun h => by
      simpa [probe_setReg_reg] using h.out_eq⟩
  | jump a =>
    obtain rfl : k = a := by simpa [registersRead, regNum_inj] using hk
    exact ⟨probe flNone, _, _, 0#8, hk, .jump k, .jump k, fun h => by
      simpa [probe_setReg_reg] using h.pc_eq⟩
  | jumpIfEqual a =>
    obtain ⟨-, rfl⟩ : s0.flagE = true ∧ k = a := by simpa [registersRead, regNum_inj] using hk
    exact ⟨probe flEqual, _, _, 0#8, by simp [registersRead], .jumpIfEqual k, .jumpIfEqual k, fun h => by
      simpa [probe_setReg_reg] using h.pc_eq⟩
  | jumpIfNotEqual a =>
    obtain ⟨-, rfl⟩ : s0.flagE = false ∧ k = a := by simpa [registersRead, regNum_inj] using hk
    exact ⟨probe flNone, _, _, 0#8, by simp [registersRead], .jumpIfNotEqual k, .jumpIfNotEqual k, fun h => by
      simpa [probe_setReg_reg] using h.pc_eq⟩
  | mul a b =>
    have hab : k = a ∨ k = b := by simpa [registersRead, regNum_inj] using hk
    exact ⟨probe flNone, _, _, 0#8, hk, .mul a b, .mul a b,
      not_noInfluence_of_op hab (by decide) (fun _ => by decide) (by decide) (by decide)⟩
  | add a b =>
    have hab : k = a ∨ k = b := by simpa [registersRead, regNum_inj] using hk
    exact ⟨probe flNone, _, _, 0#8, hk, .add a b, .add a b,
      not_noInfluence_of_op hab (by decide) (fun _ => by decide) (by decide) (by decide)⟩
  | sub a b =>
    have hab : k = a ∨ k = b := by simpa [registersRead, regNum_inj] using hk
    have hne : a ≠ b := by rintro rfl; exact hsub (by rw [or_self_iff.1 hab])
    exact ⟨probe flNone, _, _, 0#8, hk, .sub a b, .sub a b,
      not_noInfluence_of_op hab (by decide) (absurd · hne) (by decide) (by decide)⟩
  | compare a b =>
    have hab : k = a ∨ k = b := by simpa [registersRead, regNum_inj] using hk
    have hne : a ≠ b := by rintro rfl; exact hcmp (by rw [or_self_iff.1 hab])
    refine ⟨probe flNone, _, _, 0#8, hk, .compare a b, .compare a b, fun h => ?_⟩
    have hfl := h.fl_eq.trans (show _ = compareFlags 2#8 2#8 by simp)
    exact op_zeroed_ne (op := compareFlags) hab (absurd · hne) (by decide) (by decide) hfl
  | div a b =>
    have hab : k = a ∨ k = b := by simpa [registersRead, regNum_inj] using hk
    by_cases hb : k = b
    · have zero : ((probe flNone).setReg k 0#8).x[b] = 0#8 := by simp [probe_setReg_reg, hb]
      exact ⟨probe flNone, _, _, 0#8, hk, .div a b (by simp), .divByZero a b zero, fun h => nomatch h.fault_eq⟩
    · have two : ((probe flNone).setReg k 0#8).x[b] ≠ 0#8 := by simp [probe_setReg_reg, ← Fin.ext_iff, hb]
      exact ⟨probe flNone, _, _, 0#8, hk, .div a b (by simp), .div a b two,
        not_noInfluence_of_op (op := (· / ·)) hab (by decide) (fun _ => by decide) (by decide) (by decide)⟩
  | pop a =>
    obtain rfl : k = 7 := by simpa [registersRead, regNum_eq_seven] using hk
    refine ⟨probe flNone, _, _, 0#8, hk, .pop a (by decide), .pop a (by decide), fun h => ?_⟩
    by_cases ha : a = 7
    · subst ha
      exact absurd (h.reg_eq (j := 7) (by decide)) (by decide)
    · simpa [ha, probe_setReg_reg] using h.reg_eq (j := 7) (by simp [ha])
  | ret =>
    obtain rfl : k = 7 := by simpa [registersRead, regNum_eq_seven] using hk
    refine ⟨probe flNone, _, _, 0#8, hk, .ret (by decide), .ret (by decide), fun h => ?_⟩
    simpa [probe_setReg_reg] using h.reg_eq (j := 7) (by simp)
  | push a =>
    have h7a : k = 7 ∨ k = a := by simpa [registersRead, regNum_inj, regNum_eq_seven] using hk
    by_cases h7 : k = 7
    · subst h7
      exact ⟨probe flNone, _, _, 0#8, hk, .push a (by decide), .pushFull a (by decide), fun h => nomatch h.fault_eq⟩
    · obtain rfl : k = a := h7a.resolve_left h7
      have hk7 : k.val ≠ 7 := Fin.val_ne_of_ne h7
      have sp : ((probe flNone).setReg k 0#8).x[7] ≠ 0#8 := by simp [probe_setReg_reg, hk7]
      refine ⟨probe flNone, _, _, 0#8, hk, .push k (by decide), .push k sp, fun h => ?_⟩
      simpa [h7, hk7, probe_setReg_reg] using congrArg (Memory.read · 1) h.mem_eq
  | call a =>
    have h7a : k = 7 ∨ k = a := by simpa [registersRead, regNum_inj, regNum_eq_seven] using hk
    by_cases h7 : k = 7
    · subst h7
      exact ⟨probe flNone, _, _, 0#8, hk, .call a (by decide), .callFull a (by decide), fun h => nomatch h.fault_eq⟩
    · obtain rfl : k = a := h7a.resolve_left h7
      have hk7 : k.val ≠ 7 := Fin.val_ne_of_ne h7
      have sp : ((probe flNone).setReg k 0#8).x[7] ≠ 0#8 := by simp [probe_setReg_reg, hk7]
      refine ⟨probe flNone, _, _, 0#8, hk, .call k (by decide), .call k sp, fun h => ?_⟩
      simpa [h7, probe_setReg_reg] using h.pc_eq

/-- Settles O33: frame of the registers written, no influence of those not read, and a witness for each in its row. -/
theorem registersReadAndWrittenAsTabled : Obligations.RegistersReadAndWrittenAsTabled := by
  refine ⟨fun i s t k v hw h => ⟨(exec_eq_next_iff.1 h).reg_eq, fun hk => ?_⟩, fun i k hw hk => ?_,
    fun i k s0 hw hk hsub hcmp => ?_⟩
  · rcases (exec_eq_next_iff.1 h).setReg_of_unread hw hk v with e | ⟨hkept, e⟩
    · exact ⟨t, e.exec_eq, rfl, .inl rfl⟩
    · exact ⟨t.setReg k v, e.exec_eq, by simp [State.setReg], .inr ⟨setReg_reg_same t k v, hkept⟩⟩
  · obtain ⟨s, t, e, hfault, hne⟩ := exists_effect_reg_ne hw hk
    exact ⟨s, t, e.exec_eq, hfault, hne⟩
  · obtain ⟨s, t, t', v, hread, e, e', hinf⟩ := exists_effect_influenced hw hk hsub hcmp
    exact ⟨s, t, t', v, hread, e.exec_eq, e'.exec_eq, hinf⟩

end Sys2Proof.Machine
end

section
/-! Memory (20_memory.md R51, R52, R66): O35, O37. -/

namespace Sys2Proof.Machine

/-! ### The memory port -/

/-- R51: a read out of bounds fails. -/
theorem memRead_out_of_bounds (s : State) {addr : Int} (h : addr < 0 ∨ 255 < addr) :
    s.memRead addr = .error .addressOutOfBounds := if_neg (by omega)

/-- R52: a write out of bounds fails. -/
theorem memWrite_out_of_bounds (s : State) (v : Byte) {addr : Int} (h : addr < 0 ∨ 255 < addr) :
    s.memWrite addr v = .error .addressOutOfBounds := if_neg (by omega)

/-- R52: a write in bounds sets the cell. -/
theorem memWrite_of_lt (s : State) (v : Byte) {n : Nat} (h : n < 256) :
    s.memWrite n v = .ok { s with mem := s.mem.write n v } := by
  rw [State.memWrite, if_pos (by omega), Int.toNat_natCast]

/-- Settles O35: out of bounds both accesses fail; an address in bounds is a natural number below 256, where a read
after the write gives the value at that cell and the old byte at any other. -/
theorem memoryPortContract : Obligations.MemoryPortContract := by
  refine fun s addr v => ⟨fun h => ⟨memRead_out_of_bounds s h, memWrite_out_of_bounds s v h⟩, fun h0 h255 => ?_⟩
  obtain ⟨n, rfl⟩ := Int.eq_ofNat_of_zero_le h0
  have hn : n < 256 := by omega
  refine ⟨memRead_of_lt s hn, _, memWrite_of_lt s v hn, rfl, ?_, fun a ha => ?_⟩
  · rw [memRead_of_lt _ hn, Memory.read_write_same]
  · exact Memory.read_write_other _ _ (by omega)

/-! ### Fetch coherence -/

/-- R66: where one cell has been written, each byte of the fetch is the written byte at its address and the byte
memory held before at any other. -/
theorem fetchWindow_getElem_of_write {t : State} {m : Memory} {a n : Nat} {v : Byte} (hm : t.mem = m.write a v)
    (hn : n < 3) (h : t.pc.toNat + n < 256) :
    t.fetchWindow[n]? = some (if t.pc.toNat + n = a then v else m.read (t.pc.toNat + n)) := by
  rw [fetchWindow_getElem t hn h, hm, Memory.read_write]

/-- Settles O37: PUSH and CALL each write the one cell below SP, and the next fetch reads that memory. -/
theorem fetchSeesThePushedByte : Obligations.FetchSeesThePushedByte := fun _ k hsp =>
  ⟨⟨_, (Effect.push k hsp).exec_eq, fun _ => fetchWindow_getElem_of_write rfl⟩,
    _, (Effect.call k hsp).exec_eq, fun _ => fetchWindow_getElem_of_write rfl⟩

end Sys2Proof.Machine
end

section
/-! Encoding and decoding (30_encoding.md R81, R84, R85, R87): O1, O4, O5. -/

namespace Sys2Proof.Machine

/-! ### What the decoder accepts, and what it rejects by its opcode -/

/-- The bytes the decoder consumes are the encoding of the instruction it answers, which is well formed (R82, R89). -/
theorem eq_encode_append_of_decode {bs rest : List Byte} {i : Instr} (h : decode bs = .ok (i, rest)) :
    bs = encode i ++ rest ∧ i.wellFormed = true := by
  unfold decode at h
  split at h
  · cases h
  · split at h
    case h_1 | h_11 => -- HALT, RETURN
      cases h; exact ⟨rfl, rfl⟩
    case h_2 => -- LOAD-IMMEDIATE
      obtain ⟨k, imm, rfl, rfl⟩ := decodeRegImm_ok h
      exact ⟨rfl, by simp [Instr.wellFormed, Instr.regOperands]⟩
    case h_3 | h_8 | h_9 | h_10 | h_12 | h_14 | h_15 => -- one register operand
      obtain ⟨k, rfl, rfl⟩ := decodeReg_ok h
      exact ⟨rfl, by simp [Instr.wellFormed, Instr.regOperands]⟩
    case h_4 | h_5 | h_6 | h_7 | h_13 => -- two register operands
      obtain ⟨k, j, rfl, rfl⟩ := decodeRegReg_ok h
      exact ⟨rfl, by simp [Instr.wellFormed, Instr.regOperands]⟩
    case h_16 => cases h -- not in the table

/-- An opcode byte outside the table is rejected by name, whatever follows it (R85, R88). -/
theorem decode_of_notMem_opcodes {op : Byte} (h : op ∉ opcodes) (bs : List Byte) :
    decode (op :: bs) = .error (.unrecognized op) := by
  simp only [decode]
  split
  case h_16 => rfl
  all_goals exact absurd (by decide) h

/-- A Running machine raises what the decoder rejects the fetched bytes for (R94). -/
theorem step_of_decode_error {s : State} {e : DecodeError} (hrun : s.run = .running)
    (h : decode s.fetchWindow = .error e) : step s = raise (decodeFault e) s := by
  simp only [step, hrun, h]

/-! ### Opcodes and lengths -/

/-- R81 for every instruction: bits 7:6 of its opcode are the number of its operand bytes. -/
theorem encode_length (i : Instr) : Laws.EncodeLength.Statement i := by
  cases i with
  | halt => exact Laws.EncodeLength.halt
  | loadImmediate ra imm => exact Laws.EncodeLength.loadImmediate ra imm
  | print ra => exact Laws.EncodeLength.print ra
  | mul ra rb => exact Laws.EncodeLength.mul ra rb
  | add ra rb => exact Laws.EncodeLength.add ra rb
  | sub ra rb => exact Laws.EncodeLength.sub ra rb
  | div ra rb => exact Laws.EncodeLength.div ra rb
  | pop ra => exact Laws.EncodeLength.pop ra
  | push ra => exact Laws.EncodeLength.push ra
  | call ra => exact Laws.EncodeLength.call ra
  | ret => exact Laws.EncodeLength.ret
  | jump ra => exact Laws.EncodeLength.jump ra
  | compare ra rb => exact Laws.EncodeLength.compare ra rb
  | jumpIfEqual ra => exact Laws.EncodeLength.jumpIfEqual ra
  | jumpIfNotEqual ra => exact Laws.EncodeLength.jumpIfNotEqual ra

/-- R87: bits 7:6 of an opcode are not 3. -/
theorem opcode_toNat_lt : ∀ op ∈ opcodes, op.toNat < 0xC0 := by decide

/-! ### The statements -/

/-- Settles O4: the bytes read are the encoding of the instruction, whose length its opcode announces. -/
theorem opcodeTopBitsGiveLength : Obligations.OpcodeTopBitsGiveLength := by
  intro op bs i rest h
  obtain ⟨hbytes, -⟩ := eq_encode_append_of_decode h
  obtain ⟨hlength, htop⟩ := encode_length i
  obtain ⟨rfl, -⟩ : op = i.opcode ∧ bs = i.operandBytes ++ rest := List.cons.inj hbytes
  have htotal : bs.length + 1 = (encode i).length + rest.length := by
    simpa using congrArg List.length hbytes
  exact ⟨htop, by omega, hlength⟩

/-- Settles O5: the byte at `pc` heads the fetch window, and the decoder rejects it whatever follows. -/
theorem unlistedOpcodeIsUnrecognized : Obligations.UnlistedOpcodeIsUnrecognized := by
  refine ⟨fun s hrun hop => ?_, fun op hge hmem => ?_, by decide, rfl, by decide⟩
  · have hdecode : decode s.fetchWindow = .error (.unrecognized (s.mem.read s.pc.toNat)) := by
      rw [fetchWindow_eq, decode_of_notMem_opcodes hop]
    exact ⟨_, step_of_decode_error hrun hdecode, rfl, rfl, rfl⟩
  · exact absurd (opcode_toNat_lt op hmem) (by omega)

/-- Settles O1: the decoder computes on each word; the last is rejected for its opcode. -/
theorem opcodeTableWordsDecode : Obligations.OpcodeTableWordsDecode :=
  ⟨rfl, rfl, rfl, rfl, rfl, rfl, rfl, rfl, rfl, decode_of_notMem_opcodes (by decide) _⟩

end Sys2Proof.Machine
end

section
/-! The ALU (41_alu.md R120 to R127): O16. -/

namespace Sys2Proof.Machine

/-! ### The values of the operations -/

/-- R121: the exact sum modulo 256. -/
theorem aluAdd_toNat (u v : Byte) : (aluAdd u v).toNat = (u.toNat + v.toNat) % 256 :=
  Int.natCast_inj.1 (mod256_toNat _)

/-- R122: the exact difference modulo 256, which is not negative. -/
theorem aluSub_toNat (u v : Byte) : ((aluSub u v).toNat : Int) = ((u.toNat : Int) - v.toNat) % 256 :=
  mod256_toNat _

/-- R123: the exact product modulo 256. -/
theorem aluMul_toNat (u v : Byte) : (aluMul u v).toNat = (u.toNat * v.toNat) % 256 :=
  Int.natCast_inj.1 (mod256_toNat _)

/-! ### The statement -/

/-- Settles O16: each operation's effect, with the value it writes; COMPARE's flags are a function of the two values. -/
theorem aluContract : Obligations.AluContract := by
  refine fun s i j =>
    ⟨⟨_, aluAdd_toNat _ _, (Effect.add i j).exec_eq⟩, ⟨_, aluSub_toNat _ _, (Effect.sub i j).exec_eq⟩,
      ⟨_, aluMul_toNat _ _, (Effect.mul i j).exec_eq⟩,
      fun hj => ⟨_, BitVec.toNat_udiv, (Effect.div i j hj).exec_eq⟩,
      fun hj => ⟨_, (Effect.divByZero i j hj).exec_eq, rfl, rfl⟩,
      _, (Effect.compare i j).exec_eq, fun s' i' j' hi hj => ?_⟩
  rw [← hi, ← hj]
  exact (Effect.compare i' j').exec_eq

end Sys2Proof.Machine
end

section
/-! Control transfer (43_control_transfer.md R156): O30. -/

namespace Sys2Proof.Machine

/-- A register of the register file after SP is set, SP itself included (R143, decision D17). -/
theorem getElem_set_seven (x : Vector Byte 8) (v : Byte) (k : Fin 8) :
    (x.set 7 v)[k] = if k = 7 then v else x[k] := by
  by_cases h : k = 7
  · subst h; exact Vector.getElem_set_self _
  · rw [if_neg h]; exact getElem_set_other (a := 7) x v h

/-- R154, R155: in one state exactly one of the two conditional jumps is taken. -/
theorem conditionalJumps_pc (s : State) (k : Fin 8) :
    ∃ t u, exec (.jumpIfEqual (regNum k)) s = .next t ∧ exec (.jumpIfNotEqual (regNum k)) s = .next u ∧
      ((t.pc = s.x[k] ∧ u.pc = s.pc + 2#8) ∨ (t.pc = s.pc + 2#8 ∧ u.pc = s.x[k])) := by
  refine ⟨_, _, (Effect.jumpIfEqual k).exec_eq, (Effect.jumpIfNotEqual k).exec_eq, ?_⟩
  cases hE : s.flagE with
  | true => exact .inl ⟨rfl, rfl⟩
  | false => exact .inr ⟨rfl, rfl⟩

/-- Settles O30: each transfer's effect; CALL's target is its register in the state after the push. -/
theorem transferWritesTargetOrNext : Obligations.TransferWritesTargetOrNext := fun s k =>
  ⟨fun hsp => ⟨_, (Effect.call k hsp).exec_eq, (getElem_set_seven s.x _ k).symm⟩,
    fun hsp => ⟨_, (Effect.ret hsp).exec_eq, rfl⟩,
    ⟨_, (Effect.jump k).exec_eq, rfl⟩,
    conditionalJumps_pc s k⟩

end Sys2Proof.Machine
end

section
/-! Faults (60_exceptions.md R183, R186): O11. -/

namespace Sys2Proof.Machine

variable {i : Instr} {s t : State}

/-! ### What an instruction and a step do to the recorded fault -/

/-- R183: an instruction leaves the recorded fault as it is or raises one. -/
theorem Effect.fault_eq_or_raise (e : Effect s i t) : t.fault = s.fault ∨ ∃ c, t = s.raise c := by
  cases e with
  | illegal | divByZero | popEmpty | pushFull | callFull | retEmpty => exact .inr ⟨_, rfl⟩
  | _ => exact .inl rfl

/-- R183: so does a step. -/
theorem step_fault_eq_or_raise (h : step s = .next t) : t.fault = s.fault ∨ ∃ c, t = s.raise c := by
  obtain ⟨-, ⟨e, -, ht⟩ | ⟨i, rest, -, hi⟩⟩ := step_cases h
  · exact .inr ⟨_, ht⟩
  · exact (exec_eq_next_iff.1 hi).fault_eq_or_raise

/-! ### A recorded fault has halted the engine, and a halted engine stays as it is -/

/-- R36: a Halted machine takes no step. -/
theorem step_of_halted (h : s.run = .halted) : step s = .fault .halted := by rw [step, h]

/-- R36: so a run from a Halted machine is empty. -/
theorem RunsTo.eq_of_halted (h : RunsTo s t) (hs : s.run = .halted) : t = s := by
  induction h with
  | refl => rfl
  | step _ hstep ih =>
    subst ih
    cases (step_of_halted hs).symm.trans hstep

/-- R186: a step begins Running, where no fault is recorded yet; the one it may record halts the engine. -/
theorem step_keeps_faultHalts (h : step s = .next t) (hs : s.fault ≠ none → s.run = .halted) :
    t.fault ≠ none → t.run = .halted := by
  intro ht
  rcases step_fault_eq_or_raise h with hfault | ⟨c, rfl⟩
  · cases (step_of_halted (hs (hfault ▸ ht))).symm.trans h
  · rfl

/-- R186 along a run. -/
theorem RunsTo.keeps_faultHalts (h : RunsTo s t) (hs : s.fault ≠ none → s.run = .halted) :
    t.fault ≠ none → t.run = .halted := by
  induction h with
  | refl => exact hs
  | step _ hstep ih => exact step_keeps_faultHalts hstep ih

/-- Settles O11: an instruction keeps a fault or raises another; along a run a recorded fault means Halted, and
from there no step is left. -/
theorem faultIsRaisedOnceAndStays : Obligations.FaultIsRaisedOnceAndStays := by
  refine ⟨fun i s t c h hs => ?_, fun s t u c hInv hrun ht => ?_⟩
  · rcases (exec_eq_next_iff.1 h).fault_eq_or_raise with hfault | ⟨c', rfl⟩
    · simp [hfault, hs]
    · simp
  · have halted : t.run = .halted := hrun.keeps_faultHalts hInv.faultHalts (by simp [ht])
    exact ⟨step_of_halted halted, fun hu => hu.eq_of_halted halted⟩

end Sys2Proof.Machine
end

section
/-! Reset, load and the host (70_reset_and_hazards.md R220, R227, R228): O45, O46, O44. -/

namespace Sys2Proof.Machine

variable {i : Instr} {s t : State}

/-! ### What only reset does -/

/-- R227: an action other than reset that answers a next state began Running; a load begins in a reset state. -/
theorem running_of_hostAct_next {a : HostAction} (h : hostAct a s = .next t) (ha : a ≠ .reset) :
    s.run = .running := by
  rcases hostAct_cases h with ⟨ha', -⟩ | ⟨image, -, hs, -⟩ | ⟨-, hstep⟩
  · exact absurd ha' ha
  · rw [hs]; rfl
  · exact (step_cases hstep).1

/-- R228: an action other than reset keeps a recorded fault or raises another. -/
theorem fault_ne_none_of_hostAct_next {a : HostAction} (h : hostAct a s = .next t) (ha : a ≠ .reset)
    (hs : s.fault ≠ none) : t.fault ≠ none := by
  rcases hostAct_cases h with ⟨ha', -⟩ | ⟨image, -, -, rfl⟩ | ⟨-, hstep⟩
  · exact absurd ha' ha
  · exact hs
  · rcases step_fault_eq_or_raise hstep with hfault | ⟨c, rfl⟩
    · rwa [hfault]
    · exact Option.some_ne_none c

/-- R220: reset leaves the reset state of the same configuration. -/
theorem hostAct_reset (s : State) : hostAct .reset s = .next (State.resetWith s.cfg) := rfl

/-- Settles O45: every action but reset needs a Running machine and keeps a recorded fault or raises another. -/
theorem onlyResetLeavesHalted : Obligations.OnlyResetLeavesHalted := by
  intro a s t h
  by_cases ha : a = .reset
  · subst ha
    cases (hostAct_reset s).symm.trans h
    exact ⟨fun _ => ⟨rfl, rfl⟩, fun _ _ => rfl⟩
  · refine ⟨fun halted => ?_, fun hs ht => absurd ht (fault_ne_none_of_hostAct_next h ha hs)⟩
    cases halted.symm.trans (running_of_hostAct_next h ha)

/-! ### What a step keeps -/

/-- No instruction writes the configuration (R7). -/
theorem Effect.cfg_eq (e : Effect s i t) : t.cfg = s.cfg := by
  cases e <;> rfl

/-- R54: an instruction leaves memory or writes one cell, below address 256. -/
theorem Effect.mem_eq_or_write (e : Effect s i t) : t.mem = s.mem ∨ ∃ k < 256, ∃ v, t.mem = s.mem.write k v := by
  have below : s.x[7].toNat - 1 < 256 := by omega
  cases e with
  | push a h | call a h => exact .inr ⟨_, below, _, rfl⟩
  | _ => exact .inl rfl

/-- R188: no instruction raises a reserved cause. -/
theorem Effect.keeps_faultRaisable (e : Effect s i t)
    (hs : s.fault ≠ some .stackOverflow ∧ s.fault ≠ some .unsupportedALUOperation) :
    t.fault ≠ some .stackOverflow ∧ t.fault ≠ some .unsupportedALUOperation := by
  cases e with
  | illegal | divByZero | popEmpty | pushFull | callFull | retEmpty => simp
  | _ => exact hs

/-- R188: nor does a decoding failure. -/
theorem decodeFault_raisable (e : DecodeError) :
    decodeFault e ≠ .stackOverflow ∧ decodeFault e ≠ .unsupportedALUOperation := by
  cases e <;> exact ⟨nofun, nofun⟩

/-- R7: no step writes the configuration. -/
theorem step_keeps_cfg (h : step s = .next t) : t.cfg = s.cfg := by
  obtain ⟨-, ⟨e, -, rfl⟩ | ⟨i, rest, -, hi⟩⟩ := step_cases h
  · rfl
  · exact (exec_eq_next_iff.1 hi).cfg_eq

/-- R50: a step keeps memory canonical. -/
theorem step_keeps_memCanonical (h : step s = .next t) (hs : s.mem.wf = true) : t.mem.wf = true := by
  obtain ⟨-, ⟨e, -, rfl⟩ | ⟨i, rest, -, hi⟩⟩ := step_cases h
  · exact hs
  · rcases (exec_eq_next_iff.1 hi).mem_eq_or_write with hmem | ⟨k, hk, v, hmem⟩
    · rwa [hmem]
    · rw [hmem]; exact Memory.wf_write hs hk v

/-- R188: a step records no reserved cause. -/
theorem step_keeps_faultRaisable (h : step s = .next t)
    (hs : s.fault ≠ some .stackOverflow ∧ s.fault ≠ some .unsupportedALUOperation) :
    t.fault ≠ some .stackOverflow ∧ t.fault ≠ some .unsupportedALUOperation := by
  obtain ⟨-, ⟨e, -, rfl⟩ | ⟨i, rest, -, hi⟩⟩ := step_cases h
  · simpa using decodeFault_raisable e
  · exact (exec_eq_next_iff.1 hi).keeps_faultRaisable hs

/-- R35: a step keeps FL legal. -/
theorem step_keeps_flagsLegal (h : step s = .next t) (hs : flLegal s.fl = true) : flLegal t.fl = true := by
  rcases step_fl_cases h with hfl | hfl | hfl | hfl
  · rwa [hfl]
  all_goals rw [hfl]; decide

/-! ### The invariant, action by action -/

theorem step_keeps_inv (h : step s = .next t) (hs : s.Inv) : t.Inv where
  memCanonical := step_keeps_memCanonical h hs.memCanonical
  flagsLegal := step_keeps_flagsLegal h hs.flagsLegal
  faultHalts := step_keeps_faultHalts h hs.faultHalts
  faultRaisable := step_keeps_faultRaisable h hs.faultRaisable

theorem resetWith_inv (cfg : Config) : (State.resetWith cfg).Inv where
  memCanonical := reset_mem_wf cfg
  flagsLegal := rfl
  faultHalts h := absurd rfl h
  faultRaisable := ⟨nofun, nofun⟩

/-- A bulk write keeps the invariant: only memory changes, and it stays canonical (R68). -/
theorem load_inv (image : List Byte) (hs : s.Inv) : (s.load image).Inv :=
  { hs with memCanonical := Memory.wf_writeBytes image hs.memCanonical }

/-- Settles O46, action by action. -/
theorem hostActionsKeepInvariant : Obligations.HostActionsKeepInvariant := by
  intro a s t hInv h
  rcases hostAct_cases h with ⟨-, rfl⟩ | ⟨image, -, -, rfl⟩ | ⟨-, hstep⟩
  · exact ⟨resetWith_inv s.cfg, rfl⟩
  · exact ⟨load_inv image hInv, rfl⟩
  · exact ⟨step_keeps_inv hstep hInv, step_keeps_cfg hstep⟩

/-! ### What the host sees -/

/-- R227: a load into a state no reset leaves is refused. -/
theorem loadImage_refused (image : List Byte) (h : s ≠ State.resetWith s.cfg) :
    s.loadImage image = .refused .loadAfterStart :=
  if_neg fun hs => h ((atReset_iff s).1 hs)

theorem hostRead_of_halted (h : s.run = .halted) : s.hostRead = some s := if_pos h

theorem hostRead_of_running (h : s.run = .running) : s.hostRead = none := if_neg (by simp [h])

theorem faultCode_of_fault_none (h : s.fault = none) : s.faultCode = 0#3 := by rw [State.faultCode, h]

/-- R227: while Running the invariant leaves no fault recorded, so both signals read 0. -/
theorem hostView_of_running (hInv : s.Inv) (h : s.run = .running) : s.hostView = ⟨s.out, false, 0#3⟩ := by
  have fault_none : s.fault = none := by
    by_contra hfault
    cases h.symm.trans (hInv.faultHalts hfault)
  rw [State.hostView, State.haltedSignal, h, faultCode_of_fault_none fault_none]
  rfl

/-- Settles O44, clause by clause; a launch is by definition a load into the reset state. -/
theorem hostInteractions : Obligations.HostInteractions := fun s image =>
  ⟨hostAct_reset s, rfl, loadImage_refused image, rfl, hostRead_of_halted, hostRead_of_running,
    hostView_of_running⟩

end Sys2Proof.Machine
end

section
/-! The decoder and the step (30_encoding.md R82, R84, R94; 10_state.md R36): O2, O3, O6, O7, O8. -/

namespace Sys2Proof.Machine

variable {i : Instr} {s t : State} {rest : List Byte}

/-! ### Each format decodes its own operand bytes (R82, R83) -/

theorem decodeReg_regNum (mk : RegNum → Instr) (a : Fin 8) (rest : List Byte) :
    decodeReg mk (regNum a :: rest) = .ok (mk (regNum a), rest) := by
  simp [decodeReg]

theorem decodeRegReg_regNum (mk : RegNum → RegNum → Instr) (a b : Fin 8) (rest : List Byte) :
    decodeRegReg mk (regNum a :: regNum b :: rest) = .ok (mk (regNum a) (regNum b), rest) := by
  simp [decodeRegReg]

theorem decodeRegImm_regNum (mk : RegNum → Byte → Instr) (a : Fin 8) (imm : Byte) (rest : List Byte) :
    decodeRegImm mk (regNum a :: imm :: rest) = .ok (mk (regNum a) imm, rest) := by
  simp [decodeRegImm]

/-- The decoder reads a well-formed instruction back from its encoding, whatever bytes follow (R82, R84). -/
theorem decode_encode_append (i : Instr) (rest : List Byte) (hw : i.wellFormed = true) :
    decode (encode i ++ rest) = .ok (i, rest) := by
  cases i using instr_legal_cases with
  | illegal i h => simp [h] at hw
  | halt | ret => rfl
  | loadImmediate a imm => exact decodeRegImm_regNum _ a imm rest
  | print a | pop a | push a | call a | jump a | jumpIfEqual a | jumpIfNotEqual a =>
    exact decodeReg_regNum _ a rest
  | mul a b | add a b | sub a b | div a b | compare a b => exact decodeRegReg_regNum _ a b rest

/-- Settles O2: by the instruction's form, each operand format read back from its own bytes. -/
theorem decodeOfEncodeIsTheInstruction : Obligations.DecodeOfEncodeIsTheInstruction :=
  decode_encode_append

/-- Settles O3: opcode by opcode, each format accepts only the operand bytes of a well-formed instruction. -/
theorem decodedBytesAreItsEncoding : Obligations.DecodedBytesAreItsEncoding :=
  fun _ _ _ => eq_encode_append_of_decode

/-! ### What a Running machine runs -/

/-- R94: a Running machine runs what the fetched bytes decode to. -/
theorem step_of_decode_ok (hrun : s.run = .running) (h : decode s.fetchWindow = .ok (i, rest)) :
    step s = exec i s := by
  simp only [step, hrun, h]

/-- Settles O6: the step's own equation. -/
theorem stepRunsDecodedInstruction : Obligations.StepRunsDecodedInstruction :=
  fun _ _ _ => step_of_decode_ok

/-- `InMemory s i`: the cells from `pc` on, all below address 256, hold the encoding of `i`. -/
def InMemory (s : State) (i : Instr) : Prop :=
  ∀ (n : Nat) (h : n < (encode i).length),
    s.pc.toNat + n < 256 ∧ s.mem.read (s.pc.toNat + n) = (encode i)[n]

/-- R6 `MAX_ILEN`: an encoding is at most three bytes long. -/
theorem encode_length_le (i : Instr) : (encode i).length ≤ 3 := by
  obtain ⟨hlength, htop⟩ := encode_length i
  omega

/-- The fetch window is three bytes long, or as long as memory goes (R53). -/
theorem fetchWindow_length (s : State) : s.fetchWindow.length = min 3 (256 - s.pc.toNat) := by
  have hpc := s.pc.isLt
  rw [fetchWindow_eq]
  split_ifs <;> simp only [List.length_cons, List.length_nil] <;> omega

/-- The fetch window begins with an encoding exactly when memory holds it at `pc` (R94, R53). -/
theorem encode_prefix_fetchWindow_iff : encode i <+: s.fetchWindow ↔ InMemory s i := by
  have hlength := encode_length_le i
  refine ⟨fun h n hn => ?_, fun h => List.prefix_iff_getElem?.2 fun n hn => ?_⟩
  · have hpc : s.pc.toNat + n < 256 := by
      have hle := h.length_le
      rw [fetchWindow_length] at hle
      omega
    have hbyte := List.prefix_iff_getElem?.1 h n hn
    exact ⟨hpc, Option.some.inj ((fetchWindow_getElem s (by omega) hpc).symm.trans hbyte)⟩
  · obtain ⟨hpc, hread⟩ := h n hn
    rw [fetchWindow_getElem s (by omega) hpc, hread]

/-- R94, R95: a Running machine runs the well-formed instruction that lies at `pc`. -/
theorem step_of_inMemory (hrun : s.run = .running) (hw : i.wellFormed = true) (h : InMemory s i) :
    step s = exec i s := by
  obtain ⟨rest, hrest⟩ := encode_prefix_fetchWindow_iff.2 h
  exact step_of_decode_ok hrun (by rw [← hrest, decode_encode_append i rest hw])

/-- R94: a Running machine takes the effect of the well-formed instruction that lies at `pc`. -/
theorem Effect.step_eq (e : Effect s i t) (hw : i.wellFormed = true) (hrun : s.run = .running)
    (hm : InMemory s i) : step s = .next t :=
  (step_of_inMemory hrun hw hm).trans e.exec_eq

/-- Settles O7: the fetch window begins with the encoding, which decodes to the instruction. -/
theorem instructionInMemoryRuns : Obligations.InstructionInMemoryRuns :=
  fun _ _ => step_of_inMemory

/-- R36: a Running machine has a next state, whatever the fetched bytes decode to. -/
theorem exists_step_of_running (hrun : s.run = .running) : ∃ t, step s = .next t := by
  cases hdecode : decode s.fetchWindow with
  | error e => exact ⟨_, step_of_decode_error hrun hdecode⟩
  | ok d =>
    obtain ⟨t, e⟩ := exists_effect d.1 s
    exact ⟨t, (step_of_decode_ok hrun hdecode).trans e.exec_eq⟩

/-- Settles O8: a decoding failure raises a fault, and every instruction has an effect. -/
theorem runningMachineAlwaysSteps : Obligations.RunningMachineAlwaysSteps :=
  fun _ => ⟨step_of_halted, exists_step_of_running⟩

end Sys2Proof.Machine
end

section
/-! What the instructions leave (40_system_data.md, 41_alu.md, 42_stack.md, 43_control_transfer.md): O12 to O15, O17,
O18, O21 to O26, O28, O29, O32. -/

namespace Sys2Proof.Machine

variable {i : Instr} {s t : State}

/-! ### HALT, LOAD-IMMEDIATE, PRINT, and the register check -/

/-- Settles O12: HALT's effect. -/
theorem haltCompletes : Obligations.HaltCompletes :=
  fun _ => Effect.halt.exec_eq

/-- Settles O13: LOAD-IMMEDIATE's effect. -/
theorem loadImmediateCompletes : Obligations.LoadImmediateCompletes :=
  fun _ k imm => (Effect.loadImmediate k imm).exec_eq

/-- Settles O14: PRINT's effect. -/
theorem printCompletes : Obligations.PrintCompletes :=
  fun _ k => (Effect.print k).exec_eq

/-- R38: an instruction but PRINT leaves the output. -/
theorem Effect.out_cases (e : Effect s i t) :
    t.out = s.out ∨ ∃ k, i = .print (regNum k) ∧ t.out = s.out ++ [s.x[k]] := by
  cases e with
  | print k => exact .inr ⟨k, rfl, rfl⟩
  | _ => exact .inl rfl

/-- Settles O15: effect by effect, only PRINT's has another output. -/
theorem onlyPrintEmitsOutput : Obligations.OnlyPrintEmitsOutput :=
  fun _ _ _ h => (exec_eq_next_iff.1 h).out_cases

/-- Settles O32: the register check precedes whatever the instruction was to do. -/
theorem illegalRegisterNumberFaults : Obligations.IllegalRegisterNumberFaults :=
  fun _ s h => exec_illegal h s

/-! ### The ALU -/

/-- R129: the exact sum of a value and itself is the value shifted left. -/
theorem aluAdd_self (u : Byte) : aluAdd u u = u <<< 1 := by
  rw [← BitVec.toNat_inj, aluAdd_toNat, BitVec.toNat_shiftLeft, Nat.shiftLeft_eq, ← Nat.mul_two]

/-- R129: the exact difference of a value and itself is 0. -/
theorem aluSub_self (u : Byte) : aluSub u u = 0#8 := by
  rw [aluSub, Int.sub_self]
  rfl

/-- R123: the exact product modulo 256 is the product of the bytes. -/
theorem aluMul_eq (u v : Byte) : aluMul u v = u * v := by
  rw [← BitVec.toNat_inj, aluMul_toNat, BitVec.toNat_mul]

/-- R129: a value that is not 0 divided by itself is 1. -/
theorem udiv_self_of_ne_zero {u : Byte} (h : u ≠ 0#8) : u / u = 1#8 := by
  rw [BitVec.udiv_self, if_neg (by simpa using h)]

/-- R129: a value compared with itself is equal. -/
theorem compareFlags_self (u : Byte) : compareFlags u u = 0x01#8 := if_pos rfl

/-- Settles O18: each operation's effect, at one value twice. -/
theorem aluSameRegisterTwice : Obligations.AluSameRegisterTwice := by
  refine fun s r => ⟨?_, ?_, ?_, fun hr => ?_, ?_⟩
  · rw [← aluAdd_self]; exact (Effect.add r r).exec_eq
  · rw [← aluSub_self]; exact (Effect.sub r r).exec_eq
  · rw [← aluMul_eq]; exact (Effect.mul r r).exec_eq
  · rw [← udiv_self_of_ne_zero hr]; exact (Effect.div r r hr).exec_eq
  · rw [← compareFlags_self]; exact (Effect.compare r r).exec_eq

/-- Settles O17: COMPARE's effect; the three orders of the two values exclude each other. -/
theorem compareCompletes : Obligations.CompareCompletes := by
  refine fun s i j => ⟨_, (Effect.compare i j).exec_eq, ?_⟩
  rcases compareFlags_cases s.x[i] s.x[j] with ⟨h, hfl⟩ | ⟨h, hfl⟩ | ⟨h, hfl⟩
  · exact ⟨fun _ => hfl, fun _ => by omega, fun _ => by omega⟩
  · exact ⟨fun _ => by omega, fun _ => hfl, fun _ => by omega⟩
  · exact ⟨fun _ => by omega, fun _ => by omega, fun _ => hfl⟩

/-! ### The stack -/

/-- Settles O21: PUSH's effect past its guard. -/
theorem pushCompletes : Obligations.PushCompletes :=
  fun _ k h => (Effect.push k h).exec_eq

/-- Settles O22: POP's effect past its guard. -/
theorem popCompletes : Obligations.PopCompletes :=
  fun _ k h => (Effect.pop k h).exec_eq

/-- Settles O25: the faulting effects of the four stack instructions. -/
theorem stackBoundFaults : Obligations.StackBoundFaults :=
  ⟨fun _ k h => ⟨(Effect.pushFull k h).exec_eq, (Effect.callFull k h).exec_eq⟩,
    fun _ k h => ⟨(Effect.popEmpty k h).exec_eq, (Effect.retEmpty h).exec_eq⟩⟩

/-- R54: an instruction but PUSH and CALL leaves memory. -/
theorem Effect.mem_eq (e : Effect s i t) (hi : ∀ r, i ≠ .push r ∧ i ≠ .call r) : t.mem = s.mem := by
  cases e with
  | push a => exact absurd rfl (hi (regNum a)).1
  | call a => exact absurd rfl (hi (regNum a)).2
  | _ => rfl

/-- R140: past its guard a push addresses the cell below SP. -/
theorem pushAddr_eq (h : s.x[7] ≠ 0#8) : s.pushAddr = ((s.x[7].toNat - 1 : Nat) : Int) := by
  have hpos : s.x[7].toNat ≠ 0 := fun h0 => h (BitVec.eq_of_toNat_eq h0)
  rw [State.pushAddr, sp_eq]
  omega

/-- R54: an instruction that completes leaves every cell but the one a push addresses, and one that raises a fault
leaves that one too. -/
theorem Effect.read_eq {a : Nat} (e : Effect s i t) (ha : (a : Int) ≠ s.pushAddr ∨ t.fault ≠ s.fault) :
    t.mem.read a = s.mem.read a := by
  cases e with
  | push k h | call k h =>
    have other : (a : Int) ≠ s.pushAddr := ha.resolve_right fun hfault => hfault rfl
    rw [pushAddr_eq h] at other
    exact Memory.read_write_other _ _ (by omega)
  | _ => rfl

/-- Settles O26: only the effects of PUSH and CALL have another memory, with the one cell below SP written. -/
theorem onlyPushAndCallStore : Obligations.OnlyPushAndCallStore := by
  intro i s t h
  have e := exec_eq_next_iff.1 h
  exact ⟨fun hi a => by rw [e.mem_eq hi], fun _ _ _ ha => e.read_eq ha⟩

/-! ### Control transfer -/

/-- Settles O23: CALL's effect past its guard. -/
theorem callCompletes : Obligations.CallCompletes :=
  fun _ k h => (Effect.call k h).exec_eq

/-- Settles O24: RETURN's effect past its guard. -/
theorem returnCompletes : Obligations.ReturnCompletes :=
  fun _ h => (Effect.ret h).exec_eq

/-- Settles O28: JUMP's effect. -/
theorem jumpCompletes : Obligations.JumpCompletes :=
  fun _ k => (Effect.jump k).exec_eq

/-- Settles O29: the effects of the two conditional jumps; E is clear when it is not set. -/
theorem conditionalJumpsComplete : Obligations.ConditionalJumpsComplete := by
  refine fun s k => ⟨(Effect.jumpIfEqual k).exec_eq, (Effect.jumpIfNotEqual k).exec_eq.trans ?_⟩
  rw [State.flagE]
  cases s.fl.getLsbD 0 <;> rfl

end Sys2Proof.Machine
end

section
/-! Memory, launch and the invariant (20_memory.md R50; 70_reset_and_hazards.md R220, R224; 60_exceptions.md R181):
O36, O38 to O43. -/

namespace Sys2Proof.Machine

variable {s t : State}

/-! ### The canonical form of memory -/

/-- What the canonical form says of its first cell and of the cells after it. -/
theorem Memory.wfFrom_cons {lo a : Nat} {b : Byte} {m : Memory} :
    Memory.wfFrom lo ((a, b) :: m) = true ↔
      lo ≤ a ∧ a < 256 ∧ b ≠ Memory.fill ∧ Memory.wfFrom (a + 1) m = true := by
  simp only [Memory.wfFrom, Bool.and_eq_true, decide_eq_true_eq, and_assoc]

/-- Below the bound its addresses rise from, a memory in canonical form lists no cell. -/
theorem Memory.read_of_lt_wfFrom {m : Memory} {k : Nat} :
    ∀ {lo : Nat}, Memory.wfFrom lo m = true → k < lo → m.read k = Memory.fill := by
  induction m with
  | nil => exact fun _ _ => rfl
  | cons c m ih =>
    obtain ⟨a, b⟩ := c
    intro lo hm hk
    obtain ⟨hlo, -, -, hrest⟩ := Memory.wfFrom_cons.1 hm
    rw [Memory.read, if_neg (by omega)]
    exact ih hrest (by omega)

/-- The first cell of a canonical form is the lowest one that does not read as `fill`: the first cell of another one
lies no lower if both read alike there. -/
theorem Memory.le_of_read_eq {lo a a' : Nat} {b b' : Byte} {m m' : Memory}
    (hm : Memory.wfFrom lo ((a, b) :: m) = true) (hm' : Memory.wfFrom lo ((a', b') :: m') = true)
    (hread : Memory.read ((a, b) :: m) a' = Memory.read ((a', b') :: m') a') : a ≤ a' := by
  obtain ⟨-, -, -, hrest⟩ := Memory.wfFrom_cons.1 hm
  obtain ⟨-, -, hb', -⟩ := Memory.wfFrom_cons.1 hm'
  by_contra hlt
  rw [Memory.read, if_neg (by omega), Memory.read_of_lt_wfFrom hrest (by omega), Memory.read, if_pos rfl] at hread
  exact hb' hread.symm

/-- The first cell of a canonical form does not read as `fill`. -/
theorem Memory.ne_fill_of_wfFrom_cons {lo a : Nat} {b : Byte} {m : Memory}
    (hm : Memory.wfFrom lo ((a, b) :: m) = true) : Memory.read ((a, b) :: m) a ≠ Memory.fill := by
  obtain ⟨-, -, hb, -⟩ := Memory.wfFrom_cons.1 hm
  rwa [Memory.read, if_pos rfl]

/-- Two memories in canonical form that read alike are the same list. -/
theorem Memory.eq_of_read_eq {m : Memory} : ∀ {lo : Nat} {m' : Memory}, Memory.wfFrom lo m = true →
    Memory.wfFrom lo m' = true → (∀ k, m.read k = m'.read k) → m = m' := by
  induction m with
  | nil =>
    intro lo m' _ hm' hread
    cases m' with
    | nil => rfl
    | cons c' m' => exact absurd (hread _).symm (Memory.ne_fill_of_wfFrom_cons hm')
  | cons c m ih =>
    obtain ⟨a, b⟩ := c
    intro lo m' hm hm' hread
    cases m' with
    | nil => exact absurd (hread _) (Memory.ne_fill_of_wfFrom_cons hm)
    | cons c' m' =>
      obtain ⟨a', b'⟩ := c'
      obtain rfl : a = a' :=
        Nat.le_antisymm (Memory.le_of_read_eq hm hm' (hread a')) (Memory.le_of_read_eq hm' hm (hread a).symm)
      obtain rfl : b = b' := by simpa [Memory.read] using hread a
      obtain ⟨-, -, -, hrest⟩ := Memory.wfFrom_cons.1 hm
      obtain ⟨-, -, -, hrest'⟩ := Memory.wfFrom_cons.1 hm'
      have hread_rest : ∀ k, Memory.read m k = Memory.read m' k := by
        intro k
        by_cases hk : a = k
        · rw [Memory.read_of_lt_wfFrom hrest (by omega), Memory.read_of_lt_wfFrom hrest' (by omega)]
        · simpa [Memory.read, hk] using hread k
      rw [ih hrest hrest' hread_rest]

/-- Settles O36: by induction on one list; the first cell is the lowest one that does not read as `fill`. -/
theorem canonicalMemoryIsUnique : Obligations.CanonicalMemoryIsUnique :=
  fun _ _ => Memory.eq_of_read_eq

/-! ### Reset and launch -/

/-- Settles O38: the fields of the reset state. -/
theorem resetValues : Obligations.ResetValues :=
  ⟨rfl, rfl, rfl, rfl, by decide, Memory.read_nil, rfl, rfl, rfl⟩

/-- Settles O39: field by field. -/
theorem resetMeetsInvariant : Obligations.ResetMeetsInvariant := resetWith_inv

/-- R224, R68: memory after the load of an image of at most 256 bytes holds the image, and 0x00 after it. -/
theorem read_load_resetWith (cfg : Config) {image : List Byte} (h : image.length ≤ 256) (a : Nat) :
    ((State.resetWith cfg).load image).mem.read a = image.getD a 0#8 := by
  rw [State.load, Memory.read_writeBytes]
  by_cases ha : a < image.length
  · rw [if_pos (by omega)]; rfl
  · rw [if_neg (by omega), List.getD_eq_default _ _ (by omega)]; rfl

/-- Settles O41: a launch is the load of its image into the reset state, where memory reads as `fill`. -/
theorem launchLoadsTheImage : Obligations.LaunchLoadsTheImage := by
  refine fun cfg image => ⟨fun h => ⟨_, (launch_eq cfg image).trans (if_pos h), rfl, read_load_resetWith cfg h⟩,
    fun h => ?_⟩
  rw [launch_eq, if_neg (by omega)]

/-! ### The invariant along a run -/

/-- Settles O40: field by field, for a step that raises a fault and for one that runs an instruction. -/
theorem stepKeepsInvariant : Obligations.StepKeepsInvariant :=
  fun _ _ hInv h => step_keeps_inv h hInv

/-- Along a run from a state that meets it the invariant is kept, and the configuration with it (R7). -/
theorem RunsTo.keeps_inv_and_cfg (h : RunsTo s t) (hs : s.Inv) : t.Inv ∧ t.cfg = s.cfg := by
  induction h with
  | refl => exact ⟨hs, rfl⟩
  | step _ hstep ih =>
    obtain ⟨hInv, hcfg⟩ := ih
    exact ⟨step_keeps_inv hstep hInv, (step_keeps_cfg hstep).trans hcfg⟩

/-- Settles O42: a launch answers the reset state with an image loaded, which meets the invariant, and each step keeps
it. -/
theorem launchedStatesMeetInvariant : Obligations.LaunchedStatesMeetInvariant := by
  intro cfg image s t hlaunch hrun
  obtain ⟨-, -, rfl⟩ := loadImage_next hlaunch
  exact hrun.keeps_inv_and_cfg (load_inv image (resetWith_inv cfg))

/-! ### The codes of the causes -/

/-- The cause a code stands for, none for 0 (R181). -/
def causeOfCode (code : BitVec 3) : Option FaultCause :=
  match code with
  | 1#3 => some .addressOutOfBounds
  | 2#3 => some .invalidRegisterIndex
  | 3#3 => some .divisionByZero
  | 4#3 => some .stackUnderflow
  | 5#3 => some .stackOverflow
  | 6#3 => some .unrecognizedInstruction
  | 7#3 => some .unsupportedALUOperation
  | _ => none

/-- R181: the code at the boundary gives the recorded cause back. -/
theorem causeOfCode_faultCode (s : State) : causeOfCode s.faultCode = s.fault := by
  rw [State.faultCode]
  cases s.fault with
  | none => rfl
  | some c => cases c <;> rfl

/-- Settles O43: the code of each cause, and the cause is read back from it. -/
theorem faultCodes : Obligations.FaultCodes :=
  ⟨fun _ => faultCode_of_fault_none, fun _ => ⟨rfl, rfl, rfl, rfl, rfl, rfl, rfl⟩,
    fun s t h => by rw [← causeOfCode_faultCode s, h, causeOfCode_faultCode t]⟩

end Sys2Proof.Machine
end

section
/-! The fault matrix (60_exceptions.md R183, R185, R201): O9, O10. -/

namespace Sys2Proof.Machine

variable {i : Instr} {s t : State} {op : Byte}

/-! ### The matrix, class of opcodes by class of opcodes -/

/-- The rows of the matrix below the decoder's, for the opcode `op` with second operand byte `opb`: what an
instruction that has been decoded can raise (R201). -/
def executionFault (s : State) (op opb : Byte) : Option FaultCause :=
  if op = 0xA3#8 ∧ s.x[opb.toNat]? = some 0#8 then some .divisionByZero
  else if (op = 0x45#8 ∨ op = 0x50#8) ∧ s.x[7] = 0#8 then some .addressOutOfBounds
  else if (op = 0x46#8 ∨ op = 0x11#8) ∧ s.cfg.stackEmpty.toNat ≤ s.x[7].toNat then some .stackUnderflow
  else none

/-- The tests the matrix makes, at each opcode of format OP0. -/
theorem opcodes0_classes : ∀ op ∈ opcodes0, opcodes.contains op = true ∧ opcodes1.contains op = false ∧
    opcodesAlu.contains op = false ∧ (op == 0x82#8) = false := by decide

/-- At each opcode of format OP1. -/
theorem opcodes1_classes : ∀ op ∈ opcodes1, opcodes.contains op = true ∧ opcodes1.contains op = true ∧
    opcodesAlu.contains op = false ∧ (op == 0x82#8) = false := by decide

/-- At each opcode of format OP2 with two registers. -/
theorem opcodesAlu_classes : ∀ op ∈ opcodesAlu, opcodes.contains op = true ∧ opcodes1.contains op = false ∧
    opcodesAlu.contains op = true ∧ (op == 0x82#8) = false := by decide

/-- R201: an opcode byte outside the table. -/
theorem faultMatrix_of_notMem_opcodes (h : s.mem.read s.pc.toNat ∉ opcodes) :
    faultMatrix s = some .unrecognizedInstruction :=
  if_pos (by simpa using h)

/-- R201: HALT and RETURN fetch no operand. -/
theorem faultMatrix_of_mem_opcodes0 (h : s.mem.read s.pc.toNat ∈ opcodes0) :
    faultMatrix s = executionFault s (s.mem.read s.pc.toNat) (s.mem.read (s.pc.toNat + 2)) := by
  obtain ⟨known, not1, notAlu, notImm⟩ := opcodes0_classes _ h
  simp only [faultMatrix, executionFault, known, not1, notAlu, notImm]
  simp

/-- R201, R185: the operand fetch precedes the register check. -/
theorem faultMatrix_of_mem_opcodes1 (h : s.mem.read s.pc.toNat ∈ opcodes1) :
    faultMatrix s = if s.pc.toNat = 255 then some .addressOutOfBounds
      else if 7 < (s.mem.read (s.pc.toNat + 1)).toNat then some .invalidRegisterIndex
      else executionFault s (s.mem.read s.pc.toNat) (s.mem.read (s.pc.toNat + 2)) := by
  obtain ⟨known, is1, notAlu, notImm⟩ := opcodes1_classes _ h
  simp only [faultMatrix, executionFault, known, is1, notAlu, notImm]
  simp

/-- R201, R185: both operand fetches precede the two register checks. -/
theorem faultMatrix_of_mem_opcodesAlu (h : s.mem.read s.pc.toNat ∈ opcodesAlu) :
    faultMatrix s = if 254 ≤ s.pc.toNat then some .addressOutOfBounds
      else if 7 < (s.mem.read (s.pc.toNat + 1)).toNat ∨ 7 < (s.mem.read (s.pc.toNat + 2)).toNat then
        some .invalidRegisterIndex
      else executionFault s (s.mem.read s.pc.toNat) (s.mem.read (s.pc.toNat + 2)) := by
  obtain ⟨known, not1, isAlu, notImm⟩ := opcodesAlu_classes _ h
  simp only [faultMatrix, executionFault, known, not1, isAlu, notImm]
  simp

/-- R201, R90: of the two operand bytes only the first is checked. -/
theorem faultMatrix_of_loadImmediate (h : s.mem.read s.pc.toNat = 0x82#8) :
    faultMatrix s = if 254 ≤ s.pc.toNat then some .addressOutOfBounds
      else if 7 < (s.mem.read (s.pc.toNat + 1)).toNat then some .invalidRegisterIndex
      else executionFault s (s.mem.read s.pc.toNat) (s.mem.read (s.pc.toNat + 2)) := by
  have known : opcodes.contains 0x82#8 = true := rfl
  have not1 : opcodes1.contains 0x82#8 = false := rfl
  have notAlu : opcodesAlu.contains 0x82#8 = false := rfl
  simp only [faultMatrix, executionFault, h, known, not1, notAlu]
  simp

/-! ### The decoder, class of opcodes by class of opcodes -/

/-- Format OP0 (R82). -/
theorem decode_of_mem_opcodes0 (h : op ∈ opcodes0) : ∃ i, ∀ bs, decode (op :: bs) = .ok (i, bs) := by
  simp only [opcodes0, List.mem_cons, List.not_mem_nil, or_false] at h
  rcases h with rfl | rfl <;> exact ⟨_, fun _ => rfl⟩

/-- Format OP1 (R82). -/
theorem decode_of_mem_opcodes1 (h : op ∈ opcodes1) : ∃ mk, ∀ bs, decode (op :: bs) = decodeReg mk bs := by
  simp only [opcodes1, List.mem_cons, List.not_mem_nil, or_false] at h
  rcases h with rfl | rfl | rfl | rfl | rfl | rfl | rfl <;> exact ⟨_, fun _ => rfl⟩

/-- Format OP2 with two registers (R82). -/
theorem decode_of_mem_opcodesAlu (h : op ∈ opcodesAlu) :
    ∃ mk, ∀ bs, decode (op :: bs) = decodeRegReg mk bs := by
  simp only [opcodesAlu, List.mem_cons, List.not_mem_nil, or_false] at h
  rcases h with rfl | rfl | rfl | rfl | rfl <;> exact ⟨_, fun _ => rfl⟩

/-- The fault of a decoding: the one it fails for, or `f` where it answers an instruction. -/
def decodedFault (f : Option FaultCause) : Decoded → Option FaultCause
  | .error e => some (decodeFault e)
  | .ok _ => f

theorem decodedFault_decodeReg_cons (f : Option FaultCause) (mk : RegNum → Instr) (a : Byte) (bs : List Byte) :
    decodedFault f (decodeReg mk (a :: bs)) = if 7 < a.toNat then some .invalidRegisterIndex else f := by
  rw [decodeReg]
  by_cases ha : 7 < a.toNat
  · rw [if_neg (by omega), if_pos ha]; rfl
  · rw [if_pos (by omega), if_neg ha]; rfl

theorem decodedFault_decodeRegImm_cons (f : Option FaultCause) (mk : RegNum → Byte → Instr) (a b : Byte)
    (bs : List Byte) :
    decodedFault f (decodeRegImm mk (a :: b :: bs)) = if 7 < a.toNat then some .invalidRegisterIndex else f :=
  decodedFault_decodeReg_cons f (mk · b) a bs

theorem decodedFault_decodeRegReg_cons (f : Option FaultCause) (mk : RegNum → RegNum → Instr) (a b : Byte)
    (bs : List Byte) :
    decodedFault f (decodeRegReg mk (a :: b :: bs)) =
      if 7 < a.toNat ∨ 7 < b.toNat then some .invalidRegisterIndex else f := by
  rw [decodeRegReg]
  by_cases ha : 7 < a.toNat
  · rw [if_neg (by omega), if_pos (.inl ha)]; rfl
  · rw [if_pos (by omega)]
    by_cases hb : 7 < b.toNat
    · rw [if_neg (by omega), if_pos (.inr hb)]; rfl
    · rw [if_pos (by omega), if_neg (by omega)]; rfl

/-! ### The matrix is what decoding and execution can raise -/

/-- The fetch window, by how much of an instruction of three bytes lies below address 256 (R53). -/
theorem fetchWindow_cases (s : State) :
    (s.pc.toNat < 254 ∧ s.fetchWindow =
      [s.mem.read s.pc.toNat, s.mem.read (s.pc.toNat + 1), s.mem.read (s.pc.toNat + 2)]) ∨
    (s.pc.toNat = 254 ∧ s.fetchWindow = [s.mem.read s.pc.toNat, s.mem.read (s.pc.toNat + 1)]) ∨
    (s.pc.toNat = 255 ∧ s.fetchWindow = [s.mem.read s.pc.toNat]) := by
  have hpc := s.pc.isLt
  rw [fetchWindow_eq]
  split_ifs
  · exact .inl ⟨by omega, rfl⟩
  · exact .inr (.inl ⟨by omega, rfl⟩)
  · exact .inr (.inr ⟨by omega, rfl⟩)

/-- Every row of the matrix is the decoder's fault or one the decoded instruction can raise (R185, R201). -/
theorem faultMatrix_eq (s : State) :
    faultMatrix s = decodedFault (executionFault s (s.mem.read s.pc.toNat) (s.mem.read (s.pc.toNat + 2)))
      (decode s.fetchWindow) := by
  by_cases h : s.mem.read s.pc.toNat ∈ opcodes
  case neg => rw [fetchWindow_eq, decode_of_notMem_opcodes h, faultMatrix_of_notMem_opcodes h]; rfl
  simp only [opcodes, List.mem_append, List.mem_cons] at h
  rcases h with (h | h) | h | h
  · obtain ⟨i, hdecode⟩ := decode_of_mem_opcodes0 h
    rw [fetchWindow_eq, hdecode, faultMatrix_of_mem_opcodes0 h]; rfl
  · obtain ⟨mk, hdecode⟩ := decode_of_mem_opcodes1 h
    rw [faultMatrix_of_mem_opcodes1 h]
    rcases fetchWindow_cases s with ⟨hpc, hwindow⟩ | ⟨hpc, hwindow⟩ | ⟨hpc, hwindow⟩
    · rw [hwindow, hdecode, decodedFault_decodeReg_cons, if_neg (by omega)]
    · rw [hwindow, hdecode, decodedFault_decodeReg_cons, if_neg (by omega)]
    · rw [hwindow, hdecode, if_pos hpc]; rfl
  · have hdecode : ∀ bs, decode (s.mem.read s.pc.toNat :: bs) = decodeRegImm .loadImmediate bs := by
      rw [h]; exact fun _ => rfl
    rw [faultMatrix_of_loadImmediate h]
    rcases fetchWindow_cases s with ⟨hpc, hwindow⟩ | ⟨hpc, hwindow⟩ | ⟨hpc, hwindow⟩
    · rw [hwindow, hdecode, decodedFault_decodeRegImm_cons, if_neg (by omega)]
    · rw [hwindow, hdecode, if_pos (by omega)]; rfl
    · rw [hwindow, hdecode, if_pos (by omega)]; rfl
  · obtain ⟨mk, hdecode⟩ := decode_of_mem_opcodesAlu h
    rw [faultMatrix_of_mem_opcodesAlu h]
    rcases fetchWindow_cases s with ⟨hpc, hwindow⟩ | ⟨hpc, hwindow⟩ | ⟨hpc, hwindow⟩
    · rw [hwindow, hdecode, decodedFault_decodeRegReg_cons, if_neg (by omega)]
    · rw [hwindow, hdecode, if_pos (by omega)]; rfl
    · rw [hwindow, hdecode, if_pos (by omega)]; rfl

/-- An instruction in memory raises exactly the fault its opcode can still raise, or completes, and halts only when it
is HALT (R183, R201). -/
theorem Effect.completes_or_raises (e : Effect s i t) (hw : i.wellFormed = true) (hm : InMemory s i) :
    (executionFault s i.opcode (s.mem.read (s.pc.toNat + 2)) = none ∧ t.fault = s.fault ∧
      t.run = if i.opcode = 0x01#8 then .halted else s.run) ∨
    ∃ c, executionFault s i.opcode (s.mem.read (s.pc.toNat + 2)) = some c ∧ t = s.raise c := by
  cases e with
  | illegal h => simp [h] at hw
  | divByZero a b h =>
    have hb : s.mem.read (s.pc.toNat + 2) = regNum b := (hm 2 (Nat.lt_add_one 2)).2
    exact .inr ⟨_, by simpa [executionFault, Instr.opcode, hb] using h, rfl⟩
  | popEmpty _ h | retEmpty h => exact .inr ⟨_, by simp [executionFault, Instr.opcode, h], rfl⟩
  | pushFull _ h | callFull _ h => exact .inr ⟨_, by simp [executionFault, Instr.opcode, h], rfl⟩
  | div a b h =>
    have hb : s.mem.read (s.pc.toNat + 2) = regNum b := (hm 2 (Nat.lt_add_one 2)).2
    exact .inl ⟨by simpa [executionFault, Instr.opcode, hb] using h, rfl, rfl⟩
  | pop _ h | ret h | push _ h | call _ h =>
    exact .inl ⟨by simp [executionFault, Instr.opcode, h], rfl, rfl⟩
  | _ => exact .inl ⟨rfl, rfl, rfl⟩

/-- R201, R183: a step from a Running state raises the fault of the matrix, or completes where it names none. -/
theorem step_of_faultMatrix (hrun : s.run = .running) :
    (∃ c, faultMatrix s = some c ∧ step s = .next (s.raise c)) ∨
      (faultMatrix s = none ∧ ∃ t, step s = .next t ∧ t.fault = s.fault ∧
        (t.run = .running ↔ s.mem.read s.pc.toNat ≠ 0x01#8)) := by
  rw [faultMatrix_eq]
  cases hdecode : decode s.fetchWindow with
  | error e => exact .inl ⟨_, rfl, step_of_decode_error hrun hdecode⟩
  | ok d =>
    obtain ⟨i, rest⟩ := d
    obtain ⟨hbytes, hw⟩ := eq_encode_append_of_decode hdecode
    have hm : InMemory s i := encode_prefix_fetchWindow_iff.1 ⟨rest, hbytes.symm⟩
    have hop : s.mem.read s.pc.toNat = i.opcode := (hm 0 (Nat.succ_pos _)).2
    obtain ⟨t, e⟩ := exists_effect i s
    have hstep : step s = .next t := e.step_eq hw hrun hm
    rw [hop]
    rcases e.completes_or_raises hw hm with ⟨hnone, hfault, hrun'⟩ | ⟨c, hsome, rfl⟩
    · refine .inr ⟨hnone, t, hstep, hfault, ?_⟩
      rw [hrun', hrun]
      split <;> simp [*]
    · exact .inl ⟨c, hsome, hstep⟩

/-- Settles O9: the matrix names what the decoder or the decoded instruction raises. -/
theorem faultMatrixIsExact : Obligations.FaultMatrixIsExact := by
  intro s hrun
  rcases step_of_faultMatrix hrun with ⟨c, hc, hstep⟩ | ⟨hnone, hstep⟩
  · exact ⟨fun c' hc' => Option.some.inj (hc.symm.trans hc') ▸ hstep, fun hnone => by simp [hc] at hnone⟩
  · exact ⟨fun c hc => by simp [hc] at hnone, fun _ => hstep⟩

/-! ### Taking a fault -/

/-- R188: the causes but the two reserved ones are the five that can be raised. -/
theorem FaultCause.raisable_cases (c : FaultCause) (h : c ≠ .stackOverflow ∧ c ≠ .unsupportedALUOperation) :
    c = .addressOutOfBounds ∨ c = .invalidRegisterIndex ∨ c = .divisionByZero ∨ c = .stackUnderflow ∨
      c = .unrecognizedInstruction := by
  cases c <;> simp_all

/-- Settles O10: the step raised the fault, no step records a reserved cause, and the machine is then Halted. -/
theorem takingAFaultOnlyHalts : Obligations.TakingAFaultOnlyHalts := by
  intro s t c _ hs hstep ht
  have raisable := step_keeps_faultRaisable hstep (by simp [hs])
  rcases step_fault_eq_or_raise hstep with hfault | ⟨c', rfl⟩
  · rw [hfault, hs] at ht; cases ht
  · cases ht
    exact ⟨rfl, c.raisable_cases (by simpa using raisable), step_of_halted rfl⟩

end Sys2Proof.Machine
end

section
/-! What a push and the pop after it leave (42_stack.md R144; 43_control_transfer.md R158): O27, O31. -/

namespace Sys2Proof.Machine

variable {i : Instr} {s t : State} {op a : Byte}

/-! ### Short instructions in memory -/

/-- A one-byte instruction lies at `pc` when its opcode does. -/
theorem inMemory_of_encode_one (he : encode i = [op]) (hop : s.mem.read s.pc.toNat = op) : InMemory s i := by
  intro n hn
  obtain rfl : n = 0 := by rw [he] at hn; exact Nat.lt_one_iff.1 hn
  simp only [he]
  exact ⟨s.pc.isLt, hop⟩

/-- A two-byte instruction lies at `pc` when its opcode does and its operand byte follows below address 256. -/
theorem inMemory_of_encode_two (he : encode i = [op, a]) (hpc : s.pc.toNat < 255)
    (hop : s.mem.read s.pc.toNat = op) (ha : s.mem.read (s.pc.toNat + 1) = a) : InMemory s i := by
  intro n hn
  simp only [he]
  match n, he ▸ hn with
  | 0, _ => exact ⟨by omega, hop⟩
  | 1, _ => exact ⟨by omega, ha⟩

/-! ### The state a push leaves -/

/-- The state after a push of `v` with PC at `p` (R140): what PUSH and CALL past their guard have in common. -/
def State.pushed (s : State) (v p : Byte) : State :=
  { s with x := s.x.set 7 (s.x[7] - 1#8), mem := s.mem.write (s.x[7].toNat - 1) v, pc := p }

theorem Effect.push_pushed {k : Fin 8} (hk : k ≠ 7) (h : s.x[7] ≠ 0#8) :
    Effect s (.push (regNum k)) (s.pushed s.x[k] (s.pc + 2#8)) :=
  (Effect.push k h).congr (by rw [if_neg hk]; rfl)

theorem Effect.call_pushed (k : Fin 8) (h : s.x[7] ≠ 0#8) :
    Effect s (.call (regNum k)) (s.pushed (s.pc + 2#8) (s.decSp.reg k)) :=
  (Effect.call k h).congr (by rw [← decSp_reg]; rfl)

section Pushed

variable {v p : Byte}

theorem pushed_sp : (s.pushed v p).x[7] = s.x[7] - 1#8 := Vector.getElem_set_self _

theorem pushed_sp_toNat (h : 1 ≤ s.x[7].toNat) : (s.pushed v p).x[7].toNat = s.x[7].toNat - 1 := by
  rw [pushed_sp]
  exact BitVec.toNat_sub_of_le h

/-- R145: what has been pushed from a SP at or below `STACK_EMPTY` can be popped. -/
theorem pushed_sp_lt (h : 1 ≤ s.x[7].toNat) (hs : s.x[7].toNat ≤ s.cfg.stackEmpty.toNat) :
    (s.pushed v p).x[7].toNat < (s.pushed v p).cfg.stackEmpty.toNat := by
  rw [pushed_sp_toNat h]
  exact Nat.sub_one_lt_of_le h hs

/-- The cell at the new SP holds the pushed byte. -/
theorem read_pushed_sp (h : 1 ≤ s.x[7].toNat) : (s.pushed v p).mem.read (s.pushed v p).x[7].toNat = v := by
  rw [pushed_sp_toNat h]
  exact Memory.read_write_same _ _ _

/-- Incrementing SP again gives the registers of before the push. -/
theorem pushed_x_set_sp : (s.pushed v p).x.set 7 ((s.pushed v p).x[7] + 1#8) = s.x := by
  rw [pushed_sp, BitVec.sub_add_cancel]
  exact (Vector.set_set ..).trans (Vector.set_getElem_self _)

/-- R144: a POP of the pushed register's own value restores the registers. -/
theorem Effect.pop_pushed {k : Fin 8} (hk : k ≠ 7) (h : 1 ≤ s.x[7].toNat)
    (hs : s.x[7].toNat ≤ s.cfg.stackEmpty.toNat) :
    Effect (s.pushed s.x[k] p) (.pop (regNum k))
      { s with mem := s.mem.write (s.x[7].toNat - 1) s.x[k], pc := p + 2#8 } := by
  refine (Effect.pop k (pushed_sp_lt h hs)).congr ?_
  rw [if_neg hk, read_pushed_sp h, set_set_seven _ _ _ hk, pushed_x_set_sp, Fin.getElem_fin,
    Vector.set_getElem_self]
  rfl

/-- R158: a RETURN goes to the pushed byte and restores the registers. -/
theorem Effect.ret_pushed (h : 1 ≤ s.x[7].toNat) (hs : s.x[7].toNat ≤ s.cfg.stackEmpty.toNat) :
    Effect (s.pushed v p) .ret { s with mem := s.mem.write (s.x[7].toNat - 1) v, pc := v } := by
  refine (Effect.ret (pushed_sp_lt h hs)).congr ?_
  rw [pushed_x_set_sp, read_pushed_sp h]
  rfl

end Pushed

/-! ### The statements -/

theorem ne_zero_of_one_le_toNat {u : Byte} (h : 1 ≤ u.toNat) : u ≠ 0#8 := by
  rintro rfl
  exact absurd h (by decide)

/-- Settles O27: the push leaves the POP in memory, and the POP undoes it in all but the pushed cell. -/
theorem pushThenPopRestores : Obligations.PushThenPopRestores := by
  intro s k hk hrun hpc hpc2 hop ha hop2 ha2 hsp hempty hne hne1
  have hpush : InMemory s (.push (regNum k)) := inMemory_of_encode_two rfl hpc hop ha
  have hpop : InMemory (s.pushed s.x[k] (s.pc + 2#8)) (.pop (regNum k)) := inMemory_of_encode_two rfl hpc2
    ((Memory.read_write_other _ _ hne.symm).trans hop2) ((Memory.read_write_other _ _ hne1.symm).trans ha2)
  refine ⟨_, (Effect.push_pushed hk (ne_zero_of_one_le_toNat hsp)).step_eq ?_ hrun hpush,
    ((Effect.pop_pushed hk hsp hempty).congr ?_).step_eq ?_ hrun hpop⟩
  · simp [Instr.wellFormed, Instr.regOperands]
  · rw [BitVec.add_assoc]; rfl
  · simp [Instr.wellFormed, Instr.regOperands]

/-- Settles O31: the push leaves the RETURN at the target, and the RETURN undoes it in all but the pushed cell. -/
theorem callThenReturnRestores : Obligations.CallThenReturnRestores := by
  intro s k hrun hpc hop ha hsp hempty hne hret
  have hcall : InMemory s (.call (regNum k)) := inMemory_of_encode_two rfl hpc hop ha
  have hret' : InMemory (s.pushed (s.pc + 2#8) (s.decSp.reg k)) .ret :=
    inMemory_of_encode_one rfl ((Memory.read_write_other _ _ hne).trans hret)
  refine ⟨_, (Effect.call_pushed k (ne_zero_of_one_le_toNat hsp)).step_eq ?_ hrun hcall,
    (Effect.ret_pushed hsp hempty).step_eq rfl hrun hret'⟩
  simp [Instr.wellFormed, Instr.regOperands]

end Sys2Proof.Machine
end
